-- ==== Sys2Proof/Word.lean ====
section
/-! DEFINITION. The word types of the machine: bytes and 4-bit halves (00_scope.md R4, R8). -/

namespace Sys2Proof

/-- Data words: registers `A`, `B`, `OUT`, `IR`, the bus and a memory cell are 8 bits (R4). -/
abbrev Byte := BitVec 8

/-- 4-bit words: addresses, opcodes and operands, the halves of an instruction byte (R4, R61). -/
abbrev Nibble := BitVec 4

end Sys2Proof
end

