-- ==== Sys2Proof/Config.lean ====
section
/-! DEFINITION. The fixed sizes of the hardware (00_scope.md R4) and the one open parameter of R5 that the state
after creation needs. The other parameters of R5 stand, under names of their own, where they are used:
`CW_BITPOS`, `UCODE_EXEC`, `UCODE_RESERVED` and `UCODE_DEAD` in Machine/Microcode.lean, `OPERAND_COMBINE`,
`BYTE_LITERAL`, `WHITESPACE` and `LINE_SPLIT` in Machine/Loader.lean. -/

namespace Sys2Proof.Config

/-- Memory size, 16 bytes (R4). -/
def memSize : Nat := 16

/-- Modulus of the micro-step counter, 5 (R4); not the row width, and kept distinct from it (R102). -/
abbrev stepModulus : Nat := 5

/-- Width of a microcode row, 8 slots (R4). -/
abbrev rowWidth : Nat := 8

/-- The most lines of a program text that are processed (R4, R203). -/
def maxLines : Nat := 16

/-- `BUS_RESET`: the bus at creation, after `reset` and after a successful `assemble`.
DESIGN CHOICE (the spec's decision D7, unsafe: log entry 5). -/
def busReset : Byte := 0

/-- What a memory cell holds when the machine is created (R27, R260); so what an unlisted address reads as. -/
def memReset : Byte := 0

end Sys2Proof.Config
end

