-- ==== Sys2Proof/Syntax.lean ====
section
/-! DEFINITION. The instructions: the sixteen opcodes, the four operand roles, and one constructor of `Instr` per row
of spec/opcode_table.json (30_encoding.md R60 to R67). -/

namespace Sys2Proof

/-- The sixteen opcodes, in the order of their values 0 to 15 (R66). Opcodes 9 to 13 are the reserved ones (R67). -/
inductive Opcode where
  | nop | lda | add | sub | sta | ldi | jmp | jc | jz
  | reserved9 | reservedA | reservedB | reservedC | reservedD
  | out | hlt
deriving DecidableEq, Repr

/-- The role of the operand field (R63). -/
inductive OperandRole where
  | dataAddress | immediate | jumpTarget | ignored
deriving DecidableEq, Repr

/-- One instruction. Every form has the 4-bit operand field `n = I[3:0]` (R61), also where it is ignored: the
ignored bits stay part of the byte that `IR` holds (R65). -/
inductive Instr where
  | nop (n : Nibble)
  | lda (n : Nibble)
  | add (n : Nibble)
  | sub (n : Nibble)
  | sta (n : Nibble)
  | ldi (n : Nibble)
  | jmp (n : Nibble)
  | jc (n : Nibble)
  | jz (n : Nibble)
  | reserved9 (n : Nibble)
  | reservedA (n : Nibble)
  | reservedB (n : Nibble)
  | reservedC (n : Nibble)
  | reservedD (n : Nibble)
  | out (n : Nibble)
  | hlt (n : Nibble)
deriving DecidableEq, Repr

/-- The opcode of an instruction. -/
def Instr.opcode : Instr → Opcode
  | .nop _ => .nop
  | .lda _ => .lda
  | .add _ => .add
  | .sub _ => .sub
  | .sta _ => .sta
  | .ldi _ => .ldi
  | .jmp _ => .jmp
  | .jc _ => .jc
  | .jz _ => .jz
  | .reserved9 _ => .reserved9
  | .reservedA _ => .reservedA
  | .reservedB _ => .reservedB
  | .reservedC _ => .reservedC
  | .reservedD _ => .reservedD
  | .out _ => .out
  | .hlt _ => .hlt

/-- The operand field of an instruction. -/
def Instr.operand : Instr → Nibble
  | .nop n | .lda n | .add n | .sub n | .sta n | .ldi n | .jmp n | .jc n | .jz n
  | .reserved9 n | .reservedA n | .reservedB n | .reservedC n | .reservedD n
  | .out n | .hlt n => n

/-- The role an opcode fixes for its operand field (R63). -/
def Opcode.operandRole : Opcode → OperandRole
  | .lda | .add | .sub | .sta => .dataAddress
  | .ldi => .immediate
  | .jmp | .jc | .jz => .jumpTarget
  | .nop | .out | .hlt => .ignored
  | .reserved9 | .reservedA | .reservedB | .reservedC | .reservedD => .ignored

end Sys2Proof
end

