-- ==== Sys2Proof/WellFormed.lean ====
section
/-! DEFINITION. Which terms are well formed. An instruction's only bounded field is its operand, and its type is its
range (4 bits, 30_encoding.md R61): every instruction is well formed, as every byte decodes (R62). What can be
ill formed is a memory image handed to the loader's `LOAD` (46_program_loader.md R201): it is 16 bytes. -/

namespace Sys2Proof

/-- Every instruction is well formed: no opcode restricts its operand (R62, R63). -/
def Instr.wellFormed : Instr → Bool
  | .nop _ | .lda _ | .add _ | .sub _ | .sta _ | .ldi _ | .jmp _ | .jc _ | .jz _
  | .reserved9 _ | .reservedA _ | .reservedB _ | .reservedC _ | .reservedD _
  | .out _ | .hlt _ => true

/-- A memory image: the bytes for addresses 0, 1, 2, … (R201). -/
abbrev Image := List Byte

/-- An image is well formed when it has a byte for each of the 16 cells (R201, R216). -/
def Image.wellFormed (img : Image) : Bool := img.length == Config.memSize

end Sys2Proof
end

