-- ==== Sys2Proof/Decode.lean ====
section
/-! DEFINITION. Bytes to instructions and back (30_encoding.md R60 to R67), the bit-field helpers, the host's word
numbering, and the spec's disassembly convention (R72). -/

namespace Sys2Proof

/-- `zext_8` of a 4-bit value (00_scope.md R9). -/
def zext8 (n : Nibble) : Byte := n.setWidth 8

/-- `v[3:0]` (R8). -/
def low4 (v : Byte) : Nibble := v.extractLsb' 0 4

/-- `v[7:4]` (R8). -/
def high4 (v : Byte) : Nibble := v.extractLsb' 4 4

/-- The opcode field `I[7:4]` (R61). -/
def opcodeField (i : Byte) : Nibble := high4 i

/-- The operand field `I[3:0]` (R61). -/
def operandField (i : Byte) : Nibble := low4 i

/-- `I = (op << 4) | n` (R61). -/
def packByte (op n : Nibble) : Byte := (zext8 op <<< 4) ||| zext8 n

/-- The 4-bit value of each opcode (R66). -/
def opcodeBits : Opcode → Nibble
  | .nop => 0b0000
  | .lda => 0b0001
  | .add => 0b0010
  | .sub => 0b0011
  | .sta => 0b0100
  | .ldi => 0b0101
  | .jmp => 0b0110
  | .jc => 0b0111
  | .jz => 0b1000
  | .reserved9 => 0b1001
  | .reservedA => 0b1010
  | .reservedB => 0b1011
  | .reservedC => 0b1100
  | .reservedD => 0b1101
  | .out => 0b1110
  | .hlt => 0b1111

/-- The opcode a 4-bit value selects, by its bits from the highest down: all sixteen values have one (R62, R66). -/
def opcodeOf (op : Nibble) : Opcode :=
  match op.getLsbD 3, op.getLsbD 2, op.getLsbD 1, op.getLsbD 0 with
  | false, false, false, false => .nop
  | false, false, false, true => .lda
  | false, false, true, false => .add
  | false, false, true, true => .sub
  | false, true, false, false => .sta
  | false, true, false, true => .ldi
  | false, true, true, false => .jmp
  | false, true, true, true => .jc
  | true, false, false, false => .jz
  | true, false, false, true => .reserved9
  | true, false, true, false => .reservedA
  | true, false, true, true => .reservedB
  | true, true, false, false => .reservedC
  | true, true, false, true => .reservedD
  | true, true, true, false => .out
  | true, true, true, true => .hlt

/-- The instruction of an opcode and an operand. -/
def Instr.ofOpcode (o : Opcode) (n : Nibble) : Instr :=
  match o with
  | .nop => .nop n
  | .lda => .lda n
  | .add => .add n
  | .sub => .sub n
  | .sta => .sta n
  | .ldi => .ldi n
  | .jmp => .jmp n
  | .jc => .jc n
  | .jz => .jz n
  | .reserved9 => .reserved9 n
  | .reservedA => .reservedA n
  | .reservedB => .reservedB n
  | .reservedC => .reservedC n
  | .reservedD => .reservedD n
  | .out => .out n
  | .hlt => .hlt n

/-- The instruction a byte stands for; every byte has one (R62). -/
def decodeByte (i : Byte) : Instr := Instr.ofOpcode (opcodeOf (opcodeField i)) (operandField i)

/-- Why bytes do not decode: no byte is refused (R62), only a missing one. -/
inductive DecodeError where
  /-- Raised by `decode` on no bytes at all; safe, and no fetch of the machine meets it. -/
  | noByte
deriving DecidableEq, Repr

/-- Reads one instruction (one byte, R60) from the front of some bytes and gives the rest. -/
def decode : List Byte → Except DecodeError (Instr × List Byte)
  | [] => .error .noByte
  | i :: rest => .ok (decodeByte i, rest)

/-- The byte of an instruction (R61, R66). -/
def encodeByte (i : Instr) : Byte := packByte (opcodeBits i.opcode) i.operand

/-- The bytes of an instruction: one (R60). -/
def encode (i : Instr) : List Byte := [encodeByte i]

/-- The first byte of a word whose bits are numbered as spec/opcode_table.json numbers them, the bits above
`nbits` being 0. -/
def wordByte (nbits w : Nat) : Byte := BitVec.ofNat 8 (w % 2 ^ nbits)

/-- The instruction the decoder reads from a table word: the one byte at its lowest address (R60). -/
def decodeTableWord (nbits w : Nat) : Option Instr :=
  match decode [wordByte nbits w] with
  | .ok (i, _) => some i
  | .error _ => none

/-- The name of an opcode in a disassembly; none for the reserved ones (R66, R70). -/
def Opcode.name : Opcode → Option (List Char)
  | .nop => some ['N', 'O', 'P']
  | .lda => some ['L', 'D', 'A']
  | .add => some ['A', 'D', 'D']
  | .sub => some ['S', 'U', 'B']
  | .sta => some ['S', 'T', 'A']
  | .ldi => some ['L', 'D', 'I']
  | .jmp => some ['J', 'M', 'P']
  | .jc => some ['J', 'C']
  | .jz => some ['J', 'Z']
  | .out => some ['O', 'U', 'T']
  | .hlt => some ['H', 'L', 'T']
  | .reserved9 | .reservedA | .reservedB | .reservedC | .reservedD => none

/-- The ASCII decimal digit of a number below 10. -/
def digitChar (d : Nat) : Char := Char.ofNat (48 + d)

/-- A byte in decimal, without leading zeros (R72). -/
def byteDigits (v : Byte) : List Char :=
  let n := v.toNat
  if n < 10 then [digitChar n]
  else if n < 100 then [digitChar (n / 10), digitChar (n % 10)]
  else [digitChar (n / 100), digitChar (n / 10 % 10), digitChar (n % 10)]

/-- A byte as text, by the spec's own convention (R72, decision D2: DESIGN CHOICE, log entry 17). -/
def disassemble (i : Byte) : List Char :=
  let o := opcodeOf (opcodeField i)
  let n := operandField i
  match o.name with
  | none => ['.', 'b', 'y', 't', 'e', ' '] ++ byteDigits i
  | some name =>
    match o.operandRole with
    | .ignored => if n = 0 then name else name ++ ' ' :: byteDigits (zext8 n)
    | .dataAddress | .immediate | .jumpTarget => name ++ ' ' :: byteDigits (zext8 n)

end Sys2Proof
end

