-- ==== Sys2Proof/Machine/State.lean ====
section
/-! DEFINITION. The state of the machine (10_state.md R10: twelve elements and nothing else), its reset value, one
setter per element, and the reasons a step can stop. -/

namespace Sys2Proof.Machine

/-- Memory: (address, byte) pairs in one canonical form (`Memory.wf`, Machine/Ops.lean); an unlisted address reads
as `Config.memReset`. -/
abbrev Memory := List Host.Cell

/-- The twelve elements of R10. -/
structure State where
  /-- `A`, the accumulator (R11). -/
  a : Byte
  /-- `B`, the secondary operand register (R12). -/
  b : Byte
  /-- `OUT`, the output latch (R13). -/
  out : Byte
  /-- `PC`, the program counter, stored in 4 bits (R15). -/
  pc : Nibble
  /-- `IR`, the instruction register (R20). -/
  ir : Byte
  /-- `MAR`, the memory-address register, stored in 4 bits (R21). -/
  mar : Nibble
  /-- `ZF`, the zero flag (R17). -/
  zf : Bool
  /-- `CF`, the carry flag (R18). -/
  cf : Bool
  /-- `MEM[0..15]` (R26). -/
  mem : Memory
  /-- `BUS`, the shared bus, kept between pulses for the host to read (R26). -/
  bus : Byte
  /-- `STEP`, the micro-step counter, 0 to 4 (R22). -/
  step : Fin Config.stepModulus
  /-- `HALTED` (R23). -/
  halted : Bool
deriving DecidableEq, Repr

/-- The reasons a step can fault: the hardware has none ("`pulse` and `reset` cannot fail", 42_pulse_engine.md R155,
60_exceptions.md R230), so this type has no constructor. -/
inductive Fault where
deriving DecidableEq, Repr

/-- The reasons a step can refuse an instruction. -/
inductive Refusal where
  /-- Raised by `exec` for an instruction whose meaning is not written yet; safe. No arm raises it now. -/
  | notModelled (mnemonic : String)
deriving DecidableEq, Repr

namespace State

/-- The machine right after it is created (R27, 70_reset_and_hazards.md R260): every element zero or false, memory
with nothing listed, the bus at `Config.busReset` (log entry 5). -/
def reset : State where
  a := 0
  b := 0
  out := 0
  pc := 0
  ir := 0
  mar := 0
  zf := false
  cf := false
  mem := []
  bus := Config.busReset
  step := 0
  halted := false

/-- `A <- v`. -/
def setA (s : State) (v : Byte) : State := { s with a := v }

/-- `B <- v`. -/
def setB (s : State) (v : Byte) : State := { s with b := v }

/-- `OUT <- v`. -/
def setOut (s : State) (v : Byte) : State := { s with out := v }

/-- `PC <- v`. -/
def setPc (s : State) (v : Nibble) : State := { s with pc := v }

/-- `IR <- v`. -/
def setIr (s : State) (v : Byte) : State := { s with ir := v }

/-- `MAR <- v`. -/
def setMar (s : State) (v : Nibble) : State := { s with mar := v }

/-- `ZF <- z`, `CF <- c`: the flags are written together, always both (R19). -/
def setFlags (s : State) (z c : Bool) : State := { s with zf := z, cf := c }

/-- `MEM <- m`. -/
def setMem (s : State) (m : Memory) : State := { s with mem := m }

/-- `BUS <- v`. -/
def setBus (s : State) (v : Byte) : State := { s with bus := v }

/-- `STEP <- k`. -/
def setStep (s : State) (k : Fin Config.stepModulus) : State := { s with step := k }

/-- `HALTED <- h`. -/
def setHalted (s : State) (h : Bool) : State := { s with halted := h }

end State

end Sys2Proof.Machine
end

