-- ==== Sys2Proof/Machine/Ops.lean ====
section
/-! DEFINITION. The shared operations: reading and writing memory (20_memory.md), filling it from an image, and the
operation `reset`. There is no operation that takes an exception or returns from one: the hardware has neither
(60_exceptions.md R230 to R234). -/

namespace Sys2Proof.Machine

namespace Memory

/-- The byte a list of cells holds at an address; an address not listed reads as the value at creation (R50). -/
def lookup : Memory → Nat → Byte
  | [], _ => Config.memReset
  | (k, v) :: rest, at' => if k = at' then v else lookup rest at'

/-- `MemRead(a, 1)` (R44). -/
def read (m : Memory) (a : Nibble) : Byte := lookup m a.toNat

/-- A byte stored at an address of an address-sorted list, keeping it sorted and without entries that equal what an
unlisted address reads as. -/
def store : Memory → Nat → Byte → Memory
  | [], at', v => if v = Config.memReset then [] else [(at', v)]
  | (k, w) :: rest, at', v =>
    if at' < k then
      if v = Config.memReset then (k, w) :: rest else (at', v) :: (k, w) :: rest
    else if at' = k then
      if v = Config.memReset then rest else (at', v) :: rest
    else (k, w) :: store rest at' v

/-- `MemWrite(a, 1, v)` (R44): changes the cell at `a` and nothing else (R47). -/
def write (m : Memory) (a : Nibble) (v : Byte) : Memory := store m a.toNat v

/-- Every listed address is above `low`, the addresses rise strictly, all lie in the 16-cell space, and no listed
byte equals what an unlisted address reads as. -/
def risingFrom : Nat → Memory → Bool
  | _, [] => true
  | low, (k, v) :: rest =>
    decide (low ≤ k) && decide (k < Config.memSize) && decide (v ≠ Config.memReset) && risingFrom (k + 1) rest

/-- The canonical form of memory: equal memories are equal lists. -/
def wf (m : Memory) : Bool := risingFrom 0 m

/-- The cells of consecutive bytes from an address on, in canonical form. -/
def ofBytes : Nat → List Byte → Memory
  | _, [] => []
  | at', v :: rest => if v = Config.memReset then ofBytes (at' + 1) rest else (at', v) :: ofBytes (at' + 1) rest

/-- The memory an image describes: byte `i` at address `i`, for the 16 addresses (46_program_loader.md R216). -/
def ofImage (img : Image) : Memory := ofBytes 0 (img.take Config.memSize)

/-- The 16 bytes of a memory in address order, as the host reads them (10_state.md R28). -/
def toImage (m : Memory) : Image := (List.range Config.memSize).map (lookup m)

end Memory

namespace State

/-- The byte of memory at an address. -/
def readMem (s : State) (a : Nibble) : Byte := Memory.read s.mem a

/-- A byte of memory written. -/
def writeMem (s : State) (a : Nibble) (v : Byte) : State := s.setMem (Memory.write s.mem a v)

/-- The operation `reset()` (70_reset_and_hazards.md R262): the six registers, the flags, `STEP`, `HALTED` and the
bus cleared, memory kept. -/
def doReset (s : State) : State :=
  ((((((((((s.setA 0).setB 0).setOut 0).setPc 0).setIr 0).setMar 0).setFlags false false).setStep 0).setHalted
    false).setBus Config.busReset)

/-- The action `LOAD(image)`: `MEM <- image`, then `reset` (46_program_loader.md R201, R216). -/
def load (s : State) (img : Image) : State := (s.setMem (Memory.ofImage img)).doReset

end State

end Sys2Proof.Machine
end

