-- ==== Sys2Proof/Machine/Flags.lean ====
section
/-! DEFINITION. The arithmetic/flag unit (41_alu_flags.md): the ALU function and the values the two flags take when
they are latched. -/

namespace Sys2Proof.Machine

/-- The ALU (R120): adds `b`, or its two's-complement negation, to `a` modulo 256. -/
def alu (a b : Byte) (su : Bool) : Byte := a + (if su then -b else b)

/-- The zero flag's value: the wrapped result is 0 (R123). -/
def zeroFlag (r : Byte) : Bool := r == 0

/-- The carry flag's value: the result is smaller than the accumulator before the operation (R124); not the carry
of an adder (R125). -/
def carryFlag (r a : Byte) : Bool := r.ult a

/-- The flag latch (R134): both flags from the ALU result of the current `A` and `B`. -/
def State.latchFlags (s : State) (su : Bool) : State :=
  s.setFlags (zeroFlag (alu s.a s.b su)) (carryFlag (alu s.a s.b su) s.a)

end Sys2Proof.Machine
end

