-- ==== Sys2Proof/Machine/Microcode.lean ====
section
/-! DEFINITION. The sixteen control lines, the control word, and the constant microcode table
(40_control_lines_microcode.md). The table is not state (10_state.md R24). -/

namespace Sys2Proof.Machine

/-- The control lines, in the order of the list (R81). -/
inductive ControlLine where
  | fi | j | co | ce | oi | bi | su | eo | ao | ai | ii | io | ro | ri | mi | hlt
deriving DecidableEq, Repr

/-- The classes of R82. -/
inductive LineClass where
  | source | sink | latch | modifier
deriving DecidableEq, Repr

/-- The class of each line (R82). -/
def ControlLine.lineClass : ControlLine → LineClass
  | .co | .eo | .ao | .io | .ro => .source
  | .j | .ce | .oi | .bi | .ai | .ii | .ri | .mi | .hlt => .sink
  | .fi => .latch
  | .su => .modifier

/-- All sixteen lines (R81). -/
def ControlLine.all : List ControlLine :=
  [.fi, .j, .co, .ce, .oi, .bi, .su, .eo, .ao, .ai, .ii, .io, .ro, .ri, .mi, .hlt]

/-- `CW_BITPOS`: the bit of each line in the numeric control word. DESIGN CHOICE (decision D1, unsafe for the number
alone: log entry 2). -/
def ControlLine.bitPos : ControlLine → Nat
  | .fi => 0
  | .j => 1
  | .co => 2
  | .ce => 3
  | .oi => 4
  | .bi => 5
  | .su => 6
  | .eo => 7
  | .ao => 8
  | .ai => 9
  | .ii => 10
  | .io => 11
  | .ro => 12
  | .ri => 13
  | .mi => 14
  | .hlt => 15

/-- A control word: the set of lines it asserts, one of 2^16 (R80). -/
structure ControlWord where
  fi : Bool := false
  j : Bool := false
  co : Bool := false
  ce : Bool := false
  oi : Bool := false
  bi : Bool := false
  su : Bool := false
  eo : Bool := false
  ao : Bool := false
  ai : Bool := false
  ii : Bool := false
  io : Bool := false
  ro : Bool := false
  ri : Bool := false
  mi : Bool := false
  hlt : Bool := false
deriving DecidableEq, Repr

namespace ControlWord

/-- The empty control word (R83). -/
def empty : ControlWord := {}

/-- `cw.L`: the line is asserted (R81). -/
def has (cw : ControlWord) : ControlLine → Bool
  | .fi => cw.fi
  | .j => cw.j
  | .co => cw.co
  | .ce => cw.ce
  | .oi => cw.oi
  | .bi => cw.bi
  | .su => cw.su
  | .eo => cw.eo
  | .ao => cw.ao
  | .ai => cw.ai
  | .ii => cw.ii
  | .io => cw.io
  | .ro => cw.ro
  | .ri => cw.ri
  | .mi => cw.mi
  | .hlt => cw.hlt

/-- The asserted lines, in the order of the list. -/
def lines (cw : ControlWord) : List ControlLine := ControlLine.all.filter cw.has

/-- The asserted lines of a class. -/
def linesOf (cw : ControlWord) (c : LineClass) : List ControlLine :=
  cw.lines.filter fun l => l.lineClass == c

/-- The 16-bit number of a control word under `CW_BITPOS` (R81). -/
def number (cw : ControlWord) : BitVec 16 :=
  ControlLine.all.foldl (fun n l => n ||| (if cw.has l then 1#16 <<< l.bitPos else 0#16)) 0#16

/-- The control word of a 16-bit number under `CW_BITPOS` (R81). -/
def ofNumber (n : BitVec 16) : ControlWord where
  fi := n.getLsbD ControlLine.fi.bitPos
  j := n.getLsbD ControlLine.j.bitPos
  co := n.getLsbD ControlLine.co.bitPos
  ce := n.getLsbD ControlLine.ce.bitPos
  oi := n.getLsbD ControlLine.oi.bitPos
  bi := n.getLsbD ControlLine.bi.bitPos
  su := n.getLsbD ControlLine.su.bitPos
  eo := n.getLsbD ControlLine.eo.bitPos
  ao := n.getLsbD ControlLine.ao.bitPos
  ai := n.getLsbD ControlLine.ai.bitPos
  ii := n.getLsbD ControlLine.ii.bitPos
  io := n.getLsbD ControlLine.io.bitPos
  ro := n.getLsbD ControlLine.ro.bitPos
  ri := n.getLsbD ControlLine.ri.bitPos
  mi := n.getLsbD ControlLine.mi.bitPos
  hlt := n.getLsbD ControlLine.hlt.bitPos

end ControlWord

/-- `FETCH0`: program counter to the memory-address register (R97). -/
def fetch0 : ControlWord := { co := true, mi := true }

/-- `FETCH1`: memory to the instruction register, program counter incremented (R97). -/
def fetch1 : ControlWord := { ro := true, ii := true, ce := true }

/-- The control words of micro-steps 2, 3 and 4. -/
structure ExecWords where
  slot2 : ControlWord := {}
  slot3 : ControlWord := {}
  slot4 : ControlWord := {}
deriving DecidableEq, Repr

/-- `UCODE_RESERVED`: the execute words of the reserved opcodes, all empty. DESIGN CHOICE (decision D4, unsafe: log
entry 4). -/
def ucodeReserved (_zf _cf : Bool) (_op : Opcode) : ExecWords := {}

/-- The words of a taken jump (R100). -/
def jumpWords : ExecWords := { slot2 := { io := true, j := true } }

/-- `UCODE_EXEC`: the execute words of every opcode (R100). DESIGN CHOICE (decision D3, unsafe for intermediate states:
log entry 3). -/
def execWords (zf cf : Bool) (op : Opcode) : ExecWords :=
  match op with
  | .nop => {}
  | .lda => { slot2 := { io := true, mi := true }, slot3 := { ro := true, ai := true } }
  | .add => { slot2 := { io := true, mi := true }, slot3 := { ro := true, bi := true },
              slot4 := { eo := true, ai := true, fi := true } }
  | .sub => { slot2 := { io := true, mi := true }, slot3 := { ro := true, bi := true },
              slot4 := { eo := true, ai := true, su := true, fi := true } }
  | .sta => { slot2 := { io := true, mi := true }, slot3 := { ao := true, ri := true } }
  | .ldi => { slot2 := { io := true, ai := true } }
  | .jmp => jumpWords
  | .jc => if cf then jumpWords else {}
  | .jz => if zf then jumpWords else {}
  | .reserved9 => ucodeReserved zf cf .reserved9
  | .reservedA => ucodeReserved zf cf .reservedA
  | .reservedB => ucodeReserved zf cf .reservedB
  | .reservedC => ucodeReserved zf cf .reservedC
  | .reservedD => ucodeReserved zf cf .reservedD
  | .out => { slot2 := { ao := true, oi := true } }
  | .hlt => { slot2 := { hlt := true } }

/-- `UCODE_DEAD`: the words of the unreachable slots 5, 6 and 7 (R102, decision D5: DESIGN CHOICE, safe: log entry 6). -/
def ucodeDead (_zf _cf : Bool) (_op : Opcode) (_slot : Fin Config.rowWidth) : ControlWord := {}

/-- The microcode lookup (R96): total, the fetch words the same for every opcode and flag (R97). -/
def ucode (zf cf : Bool) (op : Nibble) (slot : Fin Config.rowWidth) : ControlWord :=
  match slot with
  | 0 => fetch0
  | 1 => fetch1
  | 2 => (execWords zf cf (opcodeOf op)).slot2
  | 3 => (execWords zf cf (opcodeOf op)).slot3
  | 4 => (execWords zf cf (opcodeOf op)).slot4
  | 5 => ucodeDead zf cf (opcodeOf op) 5
  | 6 => ucodeDead zf cf (opcodeOf op) 6
  | 7 => ucodeDead zf cf (opcodeOf op) 7

/-- `STEP mod 8`, the slot a micro-step looks up (42_pulse_engine.md R133). -/
def slotOf (k : Fin Config.stepModulus) : Fin Config.rowWidth := Fin.ofNat Config.rowWidth k.val

/-- The query `current_control_word()` (10_state.md R28): the table entry of the present flags, opcode and step. -/
def State.currentControlWord (s : State) : ControlWord :=
  ucode s.zf s.cf (opcodeField s.ir) (slotOf s.step)

end Sys2Proof.Machine
end

