-- ==== Sys2Proof/Machine/Operands.lean ====
section
/-! DEFINITION. The operand forms (30_encoding.md R63, R64): the operand field is a data address, an immediate, a
jump target, or ignored. There is no register operand and no computed address (20_memory.md R48). -/

namespace Sys2Proof.Machine

/-- The operand field zero-extended: the immediate of LDI, 0 to 15, and how every operand form travels over the bus
(R64, 42_pulse_engine.md R139). -/
def immediate (n : Nibble) : Byte := zext8 n

/-- A data address: the operand field itself, absolute (R64, R48). -/
def dataAddress (n : Nibble) : Nibble := n

/-- A jump target: the operand field itself, absolute (R64). -/
def jumpTarget (n : Nibble) : Nibble := n

end Sys2Proof.Machine
end

