-- ==== Sys2Proof/Machine/Pulse.lean ====
section
/-! DEFINITION. The pulse engine (42_pulse_engine.md): what each control line does, the six phases of one micro-step
for any of the 2^16 control words, the operation `pulse`, the machine whose step is the pulse, and the two halves of an
instruction as pulses. -/

namespace Sys2Proof.Machine

namespace State

/-- Applies `f` when a line is asserted. -/
def onLine (s : State) (asserted : Bool) (f : State → State) : State := if asserted then f s else s

/-- `CO`: `BUS <- zext_8(PC)` (R136). -/
def programCounterOut (s : State) : State := s.setBus (zext8 s.pc)

/-- `EO`: `BUS <- alu(A, B, SU)` (R137). -/
def aluOut (su : Bool) (s : State) : State := s.setBus (alu s.a s.b su)

/-- `AO`: `BUS <- A` (R138). -/
def accumulatorOut (s : State) : State := s.setBus s.a

/-- `IO`: `BUS <- zext_8(IR[3:0])` (R139). -/
def instructionRegisterOut (s : State) : State := s.setBus (immediate (operandField s.ir))

/-- `RO`: `BUS <- MEM[MAR]` (R140). -/
def memoryOut (s : State) : State := s.setBus (s.readMem s.mar)

/-- `J`: `PC <- BUS[3:0]` (R142). -/
def jump (s : State) : State := s.setPc (jumpTarget (low4 s.bus))

/-- `CE`: `PC <- (PC + 1) mod 16` (R143). -/
def programCounterIncrement (s : State) : State := s.setPc (s.pc + 1)

/-- `OI`: `OUT <- BUS` (R144). -/
def outputLatchIn (s : State) : State := s.setOut s.bus

/-- `BI`: `B <- BUS` (R145). -/
def registerBIn (s : State) : State := s.setB s.bus

/-- `AI`: `A <- BUS` (R146). -/
def accumulatorIn (s : State) : State := s.setA s.bus

/-- `II`: `IR <- BUS` (R147). -/
def instructionRegisterIn (s : State) : State := s.setIr s.bus

/-- `RI`: `MEM[MAR] <- BUS` (R148). -/
def memoryIn (s : State) : State := s.writeMem s.mar s.bus

/-- `MI`: `MAR <- BUS[3:0]` (R149). -/
def memoryAddressIn (s : State) : State := s.setMar (dataAddress (low4 s.bus))

/-- `HLT`: `HALTED <- true` (R150). -/
def halt (s : State) : State := s.setHalted true

/-- Phase 1: the bus is cleared (R132). -/
def busClear (s : State) : State := s.setBus 0

/-- Phase 3: the flag latch, if `FI` is asserted (R134). -/
def latchPhase (cw : ControlWord) (s : State) : State := s.onLine cw.fi (·.latchFlags cw.su)

/-- Phase 4: the sources in their fixed order, the last one asserted winning (R135). -/
def sourcePhase (cw : ControlWord) (s : State) : State :=
  ((((s.onLine cw.co programCounterOut).onLine cw.eo (aluOut cw.su)).onLine cw.ao accumulatorOut).onLine cw.io
    instructionRegisterOut).onLine cw.ro memoryOut

/-- Phase 5: the sinks in the listed order, so that `CE` acts after `J` and `RI` before `MI` (R141; the order is
decision D8: DESIGN CHOICE, safe: log entry 7). -/
def sinkPhase (cw : ControlWord) (s : State) : State :=
  ((((((((s.onLine cw.j jump).onLine cw.ce programCounterIncrement).onLine cw.oi outputLatchIn).onLine cw.bi
    registerBIn).onLine cw.ai accumulatorIn).onLine cw.ii instructionRegisterIn).onLine cw.ri
    memoryIn).onLine cw.mi memoryAddressIn).onLine cw.hlt halt

/-- Phase 6: `STEP <- (STEP + 1) mod 5` (R151). -/
def advanceStep (s : State) : State := s.setStep (s.step + 1)

/-- One micro-step under a given control word: phases 1 and 3 to 6 of R130. -/
def applyWord (s : State) (cw : ControlWord) : State :=
  ((((s.busClear).latchPhase cw).sourcePhase cw).sinkPhase cw).advanceStep

/-- The operation `pulse()` (R130): nothing if halted (R131), else one micro-step under the control word looked up
from the state the pulse finds (R133). -/
def pulse (s : State) : State := if s.halted then s else s.applyWord s.currentControlWord

/-- `k` pulses. -/
def pulses : Nat → State → State
  | 0, s => s
  | k + 1, s => pulses k s.pulse

/-- The fetch every instruction begins with: micro-steps 0 and 1, two pulses (R153, R154). -/
def fetch (s : State) : State := s.pulses 2

/-- The rest of an instruction: micro-steps 2 to 4, three pulses with its byte in `IR` and micro-step 2 next, which is
how the fetch leaves the machine (43_data_transfer.md R164). A halted machine executes nothing (R131). -/
def execute (s : State) (i : Instr) : State :=
  if s.halted then s else ((s.setIr (encodeByte i)).setStep 2).pulses 3

end State

/-- The machine at the spec's own level of description: its step relation is the pulse (00_scope.md R6). -/
def pulseCore : Host.Core :=
  { State := State, Fault := Fault, Refusal := Refusal, step := fun s => .next s.pulse, reset := State.reset }

end Sys2Proof.Machine
end

