-- ==== Sys2Proof/Machine/Arithmetic.lean ====
section
/-! DEFINITION. ADD and SUB (44_arithmetic.md): micro-steps 2 to 4, three pulses under the instruction's row of the
microcode table (40_control_lines_microcode.md R100). What they amount to is said in Laws/Exec.lean. -/

namespace Sys2Proof.Machine

/-- ADD n (R170): `MAR <- n`, `B <- MEM[n]`, then the flags from the old `A` and the sum to `A`; by the words `{IO, MI}`,
`{RO, BI}`, `{EO, AI, FI}`. -/
def execAdd (n : Nibble) (s : State) : Host.Outcome State Fault Refusal := .next (s.execute (.add n))

/-- SUB n (R171): as ADD with the difference; by the words `{IO, MI}`, `{RO, BI}`, `{EO, AI, SU, FI}`. -/
def execSub (n : Nibble) (s : State) : Host.Outcome State Fault Refusal := .next (s.execute (.sub n))

end Sys2Proof.Machine
end

