-- ==== Sys2Proof/Machine/Control.lean ====
section
/-! DEFINITION. NOP, JMP, JC, JZ, HLT and the reserved opcodes (45_control_flow_system.md): micro-steps 2 to 4, three
pulses under the instruction's row of the microcode table (40_control_lines_microcode.md R100). What they amount to is
said in Laws/Exec.lean. -/

namespace Sys2Proof.Machine

/-- NOP (R180): the fetch only; three empty words. -/
def execNop (n : Nibble) (s : State) : Host.Outcome State Fault Refusal := .next (s.execute (.nop n))

/-- JMP n (R181): `PC <- n`, replacing the successor the fetch set; by the word `{IO, J}`. -/
def execJmp (n : Nibble) (s : State) : Host.Outcome State Fault Refusal := .next (s.execute (.jmp n))

/-- JC n (R182): `PC <- n` if `CF`; by the word `{IO, J}` of the rows with the carry flag set. -/
def execJc (n : Nibble) (s : State) : Host.Outcome State Fault Refusal := .next (s.execute (.jc n))

/-- JZ n (R183): `PC <- n` if `ZF`; by the word `{IO, J}` of the rows with the zero flag set. -/
def execJz (n : Nibble) (s : State) : Host.Outcome State Fault Refusal := .next (s.execute (.jz n))

/-- HLT (R184): `HALTED <- true` in micro-step 2, so `STEP` stays 3 and the bus 0; by the word `{HLT}`. -/
def execHlt (n : Nibble) (s : State) : Host.Outcome State Fault Refusal := .next (s.execute (.hlt n))

/-- Reserved opcode 9 (R186): as NOP, the words of `ucodeReserved`. DESIGN CHOICE (decision D4, unsafe: log entry 4). -/
def execReserved9 (n : Nibble) (s : State) : Host.Outcome State Fault Refusal := .next (s.execute (.reserved9 n))

/-- Reserved opcode 10 (R186): as NOP, the words of `ucodeReserved`. DESIGN CHOICE (decision D4, unsafe: log entry 4). -/
def execReservedA (n : Nibble) (s : State) : Host.Outcome State Fault Refusal := .next (s.execute (.reservedA n))

/-- Reserved opcode 11 (R186): as NOP, the words of `ucodeReserved`. DESIGN CHOICE (decision D4, unsafe: log entry 4). -/
def execReservedB (n : Nibble) (s : State) : Host.Outcome State Fault Refusal := .next (s.execute (.reservedB n))

/-- Reserved opcode 12 (R186): as NOP, the words of `ucodeReserved`. DESIGN CHOICE (decision D4, unsafe: log entry 4). -/
def execReservedC (n : Nibble) (s : State) : Host.Outcome State Fault Refusal := .next (s.execute (.reservedC n))

/-- Reserved opcode 13 (R186): as NOP, the words of `ucodeReserved`. DESIGN CHOICE (decision D4, unsafe: log entry 4). -/
def execReservedD (n : Nibble) (s : State) : Host.Outcome State Fault Refusal := .next (s.execute (.reservedD n))

end Sys2Proof.Machine
end

