-- ==== Sys2Proof/Machine/DataTransfer.lean ====
section
/-! DEFINITION. LDA, STA, LDI, OUT (43_data_transfer.md): micro-steps 2 to 4, three pulses under the instruction's row of
the microcode table (R164, 40_control_lines_microcode.md R100). What they amount to is said in Laws/Exec.lean. -/

namespace Sys2Proof.Machine

/-- LDA n (R160): `A <- MEM[n]`, `MAR <- n`; by the words `{IO, MI}`, `{RO, AI}`. -/
def execLda (n : Nibble) (s : State) : Host.Outcome State Fault Refusal := .next (s.execute (.lda n))

/-- STA n (R161): `MEM[n] <- A`, `MAR <- n`; by the words `{IO, MI}`, `{AO, RI}`. -/
def execSta (n : Nibble) (s : State) : Host.Outcome State Fault Refusal := .next (s.execute (.sta n))

/-- LDI n (R162): `A <- zext_8(n)`, no flag touched; by the word `{IO, AI}`. -/
def execLdi (n : Nibble) (s : State) : Host.Outcome State Fault Refusal := .next (s.execute (.ldi n))

/-- OUT (R163): `OUT <- A`, the operand ignored; by the word `{AO, OI}`. -/
def execOut (n : Nibble) (s : State) : Host.Outcome State Fault Refusal := .next (s.execute (.out n))

end Sys2Proof.Machine
end

