-- ==== Sys2Proof/Machine/Dispatch.lean ====
section
/-! DEFINITION. The dispatch: one arm per constructor of Instr, each a direct call of its meaning. -/

namespace Sys2Proof.Machine

/-- The execute part of an instruction, micro-steps 2 to 4, from the state its fetch leaves. -/
def exec (i : Instr) (s : State) : Host.Outcome State Fault Refusal :=
  match i with
  | .nop n => Sys2Proof.Machine.execNop n s
  | .lda n => Sys2Proof.Machine.execLda n s
  | .add n => Sys2Proof.Machine.execAdd n s
  | .sub n => Sys2Proof.Machine.execSub n s
  | .sta n => Sys2Proof.Machine.execSta n s
  | .ldi n => Sys2Proof.Machine.execLdi n s
  | .jmp n => Sys2Proof.Machine.execJmp n s
  | .jc n => Sys2Proof.Machine.execJc n s
  | .jz n => Sys2Proof.Machine.execJz n s
  | .reserved9 n => Sys2Proof.Machine.execReserved9 n s
  | .reservedA n => Sys2Proof.Machine.execReservedA n s
  | .reservedB n => Sys2Proof.Machine.execReservedB n s
  | .reservedC n => Sys2Proof.Machine.execReservedC n s
  | .reservedD n => Sys2Proof.Machine.execReservedD n s
  | .out n => Sys2Proof.Machine.execOut n s
  | .hlt n => Sys2Proof.Machine.execHlt n s

end Sys2Proof.Machine
end

