-- ==== Sys2Proof/Machine/Step.lean ====
section
/-! DEFINITION. One step of the host's interface: a whole instruction. It is made of pulses and nothing else: the fetch is
two pulses, every meaning is three, so a step is the pulses up to the next instruction boundary or halt
(00_scope.md R6: the instruction level is derived from the pulse; the size of this step is a DESIGN CHOICE, log
entry 1; `pulseCore` is the machine whose step is one pulse). -/

namespace Sys2Proof.Machine

/-- A halted machine does not move (R131). At an instruction boundary (`STEP = 0`) the instruction at `PC` is fetched
and executed (R164). Between two micro-steps of an instruction the rest of it is pulsed out (R151). -/
def step (s : State) : Host.Outcome State Fault Refusal :=
  if s.halted then .next s
  else if s.step = 0 then exec (decodeByte s.fetch.ir) s.fetch
  else .next (s.pulses (Config.stepModulus - s.step.val))

/-- The state in which the very next step fetches and runs the table word `w`: its byte in the cell at `PC`, at an
instruction boundary, not halted (log entry 16). -/
def State.withFetchWord (s : State) (nbits w : Nat) : State :=
  ((s.writeMem s.pc (wordByte nbits w)).setStep 0).setHalted false

end Sys2Proof.Machine
end

