-- ==== Sys2Proof/Machine/Loader.lean ====
section
/-! DEFINITION. The program loader `assemble` (46_program_loader.md): the text grammar as the partial function
`imageOf`, and the action on the machine (R201). -/

namespace Sys2Proof.Machine

/-- A program text: a finite sequence of characters (R200); what is no character data cannot be written (R220). -/
abbrev Text := List Char

/-- `WHITESPACE`: space, tab, CR, VT, FF (R204). DESIGN CHOICE (decision D11, unsafe: log entry 11). -/
def isSpace (c : Char) : Bool :=
  c.toNat == 0x20 || c.toNat == 0x09 || c.toNat == 0x0D || c.toNat == 0x0B || c.toNat == 0x0C

/-- `LINE_SPLIT`: a line ends at a line feed, which is no part of it; an empty text has no lines, and a final line
feed adds none (R202). DESIGN CHOICE (decision D11, unsafe: log entry 11). -/
def splitLines : Text → List Text
  | [] => []
  | c :: rest =>
    if c.toNat == 0x0A then [] :: splitLines rest
    else
      match splitLines rest with
      | [] => [[c]]
      | line :: more => (c :: line) :: more

/-- The tokens of a line whose first token so far is `tok`. -/
def tokensFrom (tok : Text) : Text → List Text
  | [] => if tok.isEmpty then [] else [tok]
  | c :: rest =>
    if isSpace c then
      if tok.isEmpty then tokensFrom [] rest else tok :: tokensFrom [] rest
    else tokensFrom (tok ++ [c]) rest

/-- The tokens of a line: its maximal runs of non-whitespace characters (R204). -/
def tokens (line : Text) : List Text := tokensFrom [] line

/-- The value of an ASCII decimal digit. -/
def digitValue? (c : Char) : Option Nat :=
  if 48 ≤ c.toNat ∧ c.toNat ≤ 57 then some (c.toNat - 48) else none

/-- The number that decimal digits continue, starting from `acc`; none if a character is no digit. -/
def decimalFrom (acc : Nat) : Text → Option Nat
  | [] => some acc
  | c :: rest =>
    match digitValue? c with
    | some d => decimalFrom (acc * 10 + d) rest
    | none => none

/-- `BYTE_LITERAL`: one or more ASCII decimal digits of value at most 255 (R213). DESIGN CHOICE (decision D10, unsafe:
log entry 10). -/
def byteLiteral? (tok : Text) : Option Byte :=
  if tok.isEmpty then none
  else
    match decimalFrom 0 tok with
    | some v => if v ≤ 255 then some (BitVec.ofNat 8 v) else none
    | none => none

/-- A character with ASCII `a` to `z` folded to `A` to `Z` (R210). DESIGN CHOICE (decision D13, unsafe: log entry 13). -/
def foldCase (c : Char) : Char :=
  if 97 ≤ c.toNat ∧ c.toNat ≤ 122 then Char.ofNat (c.toNat - 32) else c

/-- The ten mnemonics of the loader (R210): NOP and the reserved opcodes are none of them (30_encoding.md R70, C1). -/
def loaderOpcodes : List Opcode :=
  [.lda, .add, .sub, .sta, .ldi, .jmp, .jc, .jz, .out, .hlt]

/-- The opcode of a token that matches a mnemonic, compared case-insensitively (R210). -/
def mnemonic? (tok : Text) : Option Opcode :=
  loaderOpcodes.find? fun o => o.name == some (tok.map foldCase)

/-- The mnemonics that may stand alone: `OUT` and `HLT` (R207, R210). -/
def standsAlone : Opcode → Bool
  | .out | .hlt => true
  | .nop | .lda | .add | .sub | .sta | .ldi | .jmp | .jc | .jz => false
  | .reserved9 | .reservedA | .reservedB | .reservedC | .reservedD => false

/-- `OPERAND_COMBINE`: `(op << 4) | (v & 0x0F)` (R211). DESIGN CHOICE for operands above 15 (decision D9, unsafe: log
entry 9). -/
def combine (o : Opcode) (v : Byte) : Byte := packByte (opcodeBits o) (low4 v)

/-- The byte of a line's tokens; none is a validation failure (R205 to R209, R212). -/
def tokensByte : List Text → Option Byte
  | [] => some 0
  | [t] =>
    match byteLiteral? t with
    | some v => some v
    | none =>
      match mnemonic? t with
      | some o => if standsAlone o then some (packByte (opcodeBits o) 0) else none
      | none => none
  | [m, t] =>
    match mnemonic? m, byteLiteral? t with
    | some o, some v => some (combine o v)
    | _, _ => none
  | _ :: _ :: _ :: _ => none

/-- The byte of a line. -/
def lineByte (line : Text) : Option Byte := tokensByte (tokens line)

/-- The bytes of lines; none if one of them fails (R215). -/
def linesBytes : List Text → Option (List Byte)
  | [] => some []
  | line :: rest =>
    match lineByte line, linesBytes rest with
    | some v, some vs => some (v :: vs)
    | _, _ => none

/-- Bytes filled with 0 up to the 16 cells (R214). DESIGN CHOICE (decision D12, unsafe: log entry 12). -/
def fillImage (vs : List Byte) : Image := vs ++ List.replicate (Config.memSize - vs.length) 0

/-- `image_of(text)` (R201, R217): the image of the first 16 lines (R203), none if one of them fails. -/
def imageOf (text : Text) : Option Image :=
  match linesBytes ((splitLines text).take Config.maxLines) with
  | some vs => some (fillImage vs)
  | none => none

/-- `assemble(text)` (R200, R217): on success loads the image and answers true (R216); on failure changes nothing
and answers false (R215). -/
def State.assemble (s : State) (text : Text) : Bool × State :=
  match imageOf text with
  | some img => (true, s.load img)
  | none => (false, s)

end Sys2Proof.Machine
end

