-- ==== Sys2Proof/Machine/Operations.lean ====
section
/-! DEFINITION. The operations of the host, exhaustively (60_exceptions.md R243): each atomic, in any state, in any
order (R244). -/

namespace Sys2Proof.Machine

/-- The three operations that change state; reading it is reading the fields (10_state.md R28). -/
inductive Operation where
  | pulse
  | reset
  | assemble (text : Text)
deriving DecidableEq, Repr

/-- The state after an operation. -/
def State.perform (s : State) : Operation → State
  | .pulse => s.pulse
  | .reset => s.doReset
  | .assemble text => (s.assemble text).2

/-- What the host gets back: a Boolean from `assemble`, nothing from the others (R243). -/
def State.answer (s : State) : Operation → Option Bool
  | .pulse => none
  | .reset => none
  | .assemble text => some (s.assemble text).1

/-- The state after operations in sequence. -/
def State.performAll : State → List Operation → State
  | s, [] => s
  | s, op :: rest => State.performAll (s.perform op) rest

end Sys2Proof.Machine
end

