-- ==== Sys2Proof/Safety.lean ====
section
/-! DEFINITION. The terms in which claims about runs are stated: boundaries, the end of a run, reachable states, safe
runs, and the invariants of the machine. -/

namespace Sys2Proof.Machine.State

/-- An instruction boundary: `STEP = 0` (00_scope.md, glossary). -/
abbrev AtBoundary (s : State) : Prop := s.step = 0

/-- A machine about to fetch an instruction: at a boundary and not halted (43_data_transfer.md R164). -/
abbrev Ready (s : State) : Prop := s.halted = false ∧ s.step = 0

/-- The instruction at the program counter. -/
def current (s : State) : Instr := decodeByte (s.readMem s.pc)

/-- A run has ended when `HALTED` is true (60_exceptions.md R247). -/
abbrev Ended (s : State) : Prop := s.halted = true

/-- `t` is the end state of the run from `s`: the state at the moment `HALTED` becomes true under pulses (R247). A run
that never halts has none. -/
def EndsIn (s t : State) : Prop :=
  ∃ k : Nat, s.pulses k = t ∧ t.Ended ∧ ∀ j : Nat, j < k → ¬ (s.pulses j).Ended

/-- What a program hands back by convention: the output latch and whatever it stored in memory (R247, decision D19). -/
structure Result where
  out : Byte
  mem : Image
deriving DecidableEq, Repr

/-- The conventional result of an ended run (R247): `OUT` and the sixteen cells. -/
def result (s : State) : Result := { out := s.out, mem := Memory.toImage s.mem }

/-- Reachable from creation by operations of the host (R243, R244). -/
def Reachable (s : State) : Prop := ∃ ops, s = State.reset.performAll ops

/-- A safe run: `k` steps end in a state, with no fault and no refusal. -/
def SafeRun (k : Nat) (s : State) : Prop := ∃ t : State, Sys2Proof.core.run k s = .next t

/-- Memory is in its canonical form. -/
abbrev MemInv (s : State) : Prop := Memory.wf s.mem = true

/-- Only HLT halts the machine, and it halts in its third pulse (45_control_flow_system.md R184): a halted machine
holds a HLT byte in `IR` and has `STEP = 3`. -/
abbrev HaltInv (s : State) : Prop := s.halted = true → s.step = 3 ∧ opcodeOf (opcodeField s.ir) = .hlt

/-- What the fetch has done so far (42_pulse_engine.md R153, R154, 70_reset_and_hazards.md R282): after micro-step 0
`MAR` is the program counter; after micro-step 1 `IR` is the byte at `MAR` and the program counter has moved
past it. -/
abbrev FetchInv (s : State) : Prop :=
  (s.step = 1 → s.mar = s.pc) ∧ (s.step = 2 → s.pc = s.mar + 1 ∧ s.ir = s.readMem s.mar)

end Sys2Proof.Machine.State
end

