-- ==== Sys2Proof/Certificates/Slice0/Obligations.lean ====
section
/-! DEFINITION. The statements for the provers. Each docstring names the rules of spec/ it rests on; a clause that rests
on a decision of the spec (92_eei_decisions.md) names the decision and the log entry. -/

open Sys2Proof Sys2Proof.Machine

/-! ### Encoding -/

/-- Decoding the encoding of an instruction gives it back, whatever bytes follow (R60, R61, R62, R66). -/
def Obligations.DecodeOfEncodeIsTheInstruction : Prop :=
  ∀ (i : Instr) (rest : List Byte), i.wellFormed = true →
    decode (encode i ++ rest) = .ok (i, rest) ∧ decodeTableWord 8 (encodeByte i).toNat = some i

/-- Every byte decodes, to the instruction whose opcode value is its high half and whose operand is its low half, and
that instruction encodes to the byte (R61, R62, R66). -/
def Obligations.EveryByteDecodesByItsHalves : Prop :=
  ∀ (b : Byte) (rest : List Byte), ∃ i : Instr,
    decode (b :: rest) = .ok (i, rest) ∧ i.wellFormed = true ∧ encode i = [b] ∧
    (opcodeBits i.opcode).toNat = b.toNat / 16 ∧ i.operand.toNat = b.toNat % 16

/-- A few words of the opcode map decode to the instructions they stand for (R61, R66, R67). -/
def Obligations.WordsOfTheOpcodeMapDecode : Prop :=
  decodeTableWord 8 0b00001001 = some (.nop 9) ∧ decodeTableWord 8 0b00010011 = some (.lda 3) ∧
  decodeTableWord 8 0b00111111 = some (.sub 15) ∧ decodeTableWord 8 0b10000100 = some (.jz 4) ∧
  decodeTableWord 8 0b10011010 = some (.reserved9 10) ∧ decodeTableWord 8 0b11100111 = some (.out 7) ∧
  decodeTableWord 8 0b11110000 = some (.hlt 0)

/-- A control word is a set of sixteen lines and is the 16-bit number of its set, in both directions (R80, R81; the
numbering is decision D1, log entry 2). -/
def Obligations.ControlWordsAreSixteenBitNumbers : Prop :=
  (∀ n : BitVec 16, (ControlWord.ofNumber n).number = n) ∧
  (∀ cw : ControlWord, ControlWord.ofNumber cw.number = cw)

/-! ### The arithmetic/flag unit -/

/-- The ALU function (R120), and that the engine feeds it `A` and `B` alone: what `EO` puts on the bus when no later
source is asserted. -/
def Obligations.AluAddsOrAddsTheNegation : Prop :=
  (∀ (a b : Byte) (su : Bool), (alu a b su).toNat =
    (a.toNat + (if su then (256 - b.toNat) % 256 else b.toNat)) % 256) ∧
  (∀ (s : State) (cw : ControlWord), cw.eo = true → cw.ao = false → cw.io = false → cw.ro = false →
    (s.applyWord cw).bus = alu s.a s.b cw.su)

/-- The closed forms of the ALU over the integers, with its corner cases (R122). -/
def Obligations.AluClosedForms : Prop :=
  ∀ a b : Byte,
    ((alu a b false).toNat : Int) = ((a.toNat : Int) + b.toNat) % 256 ∧
    ((alu a b true).toNat : Int) = ((a.toNat : Int) - b.toNat) % 256 ∧
    alu a 0 true = a ∧ alu a a true = 0 ∧ (alu 0 b true).toNat = (256 - b.toNat) % 256

/-- What the definition of the carry flag amounts to, and the two flags together (R125). -/
def Obligations.CarryFlagClosedForms : Prop :=
  ∀ a b : Byte,
    (carryFlag (alu a b false) a = true ↔ 256 ≤ a.toNat + b.toNat) ∧
    (carryFlag (alu a b true) a = true ↔ 1 ≤ b.toNat ∧ b.toNat ≤ a.toNat) ∧
    (zeroFlag (alu a b false) = true ∧ carryFlag (alu a b false) a = false ↔ a = 0 ∧ b = 0) ∧
    (zeroFlag (alu a b true) = true ↔ a = b) ∧
    (a = b → (carryFlag (alu a b true) a = true ↔ a ≠ 0))

/-! ### The pulse engine, under any of the 2^16 control words -/

/-- A halted machine is not changed by any number of pulses (R131): not by one register, flag, cell, `STEP` or the bus;
`reset` clears halted. -/
def Obligations.HaltedPulsesChangeNothing : Prop :=
  ∀ s : State, s.halted = true → (∀ k : Nat, s.pulses k = s) ∧ s.doReset.halted = false

/-- The bus begins every non-halted pulse at 0 (R132): the value an earlier pulse left is never read; with no source
asserted the bus ends at 0 and every sink takes 0; and no word of the table asserts a bus sink without
a source. -/
def Obligations.BusIsClearedFirst : Prop :=
  (∀ (s : State) (v : Byte), s.halted = false → (s.setBus v).pulse = s.pulse) ∧
  (∀ (s : State) (cw : ControlWord),
    cw.co = false → cw.eo = false → cw.ao = false → cw.io = false → cw.ro = false →
    (s.applyWord cw).bus = 0 ∧
    (cw.oi = true → (s.applyWord cw).out = 0) ∧ (cw.bi = true → (s.applyWord cw).b = 0) ∧
    (cw.ai = true → (s.applyWord cw).a = 0) ∧ (cw.ii = true → (s.applyWord cw).ir = 0) ∧
    (cw.ri = true → (s.applyWord cw).mem = Memory.write s.mem s.mar 0) ∧
    (cw.mi = true → (s.applyWord cw).mar = 0) ∧
    (cw.j = true → cw.ce = false → (s.applyWord cw).pc = 0)) ∧
  (∀ (zf cf : Bool) (op : Nibble) (slot : Fin 8) (cw : ControlWord), cw = ucode zf cf op slot →
    (cw.j || cw.oi || cw.bi || cw.ai || cw.ii || cw.ri || cw.mi) = true →
    (cw.linesOf .source).length = 1)

/-- The flag latch (R134, with the values of R123 and R124): with `FI` both flags come from the ALU result of the
`A` and `B` at the start of the pulse, the carry compared with the old `A` even when the same pulse overwrites
`A`; without `FI` both are kept; and no other effect of a pulse depends on the flags once its word is fixed. -/
def Obligations.FlagLatchUsesTheOldAccumulator : Prop :=
  ∀ (s : State) (cw : ControlWord),
    (cw.fi = true →
      ((s.applyWord cw).zf = true ↔ (alu s.a s.b cw.su).toNat = 0) ∧
      ((s.applyWord cw).cf = true ↔ (alu s.a s.b cw.su).toNat < s.a.toNat)) ∧
    (cw.fi = false → (s.applyWord cw).zf = s.zf ∧ (s.applyWord cw).cf = s.cf) ∧
    (cw.fi = true → cw.ai = true → cw.eo = true → cw.ao = false → cw.io = false → cw.ro = false →
      (s.applyWord cw).a = alu s.a s.b cw.su) ∧
    (∀ z c : Bool, ((s.setFlags z c).applyWord cw).setFlags (s.applyWord cw).zf (s.applyWord cw).cf =
      s.applyWord cw)

/-- The sources in their fixed precedence, the last one asserted winning, none combined (R135); the table never asserts
two, so the tie-break decides nothing there. -/
def Obligations.LastSourceWins : Prop :=
  (∀ (s : State) (cw : ControlWord), (s.applyWord cw).bus =
    if cw.ro then s.readMem s.mar
    else if cw.io then zext8 (operandField s.ir)
    else if cw.ao then s.a
    else if cw.eo then alu s.a s.b cw.su
    else if cw.co then zext8 s.pc
    else 0) ∧
  (∀ (zf cf : Bool) (op : Nibble) (slot : Fin 8), ((ucode zf cf op slot).linesOf .source).length ≤ 1)

/-- The program counter under any word: jump takes the low half of the bus, the increment comes after it and wraps
(R141, R142, R143). -/
def Obligations.JumpThenIncrement : Prop :=
  ∀ (s : State) (cw : ControlWord) (u : State), u = s.applyWord cw →
    (cw.j = false → cw.ce = false → u.pc = s.pc) ∧
    (cw.j = false → cw.ce = true → u.pc.toNat = (s.pc.toNat + 1) % 16) ∧
    (cw.j = true → cw.ce = false → u.pc.toNat = u.bus.toNat % 16) ∧
    (cw.j = true → cw.ce = true → u.pc.toNat = (u.bus.toNat % 16 + 1) % 16)

/-- The other register sinks under any word: each takes the bus when its line is asserted and is kept otherwise
(R144 to R147, R149, R150). -/
def Obligations.SinksTakeTheBus : Prop :=
  ∀ (s : State) (cw : ControlWord) (u : State), u = s.applyWord cw →
    u.out = (if cw.oi then u.bus else s.out) ∧ u.b = (if cw.bi then u.bus else s.b) ∧
    u.a = (if cw.ai then u.bus else s.a) ∧ u.ir = (if cw.ii then u.bus else s.ir) ∧
    u.mar.toNat = (if cw.mi then u.bus.toNat % 16 else s.mar.toNat) ∧
    u.halted = (cw.hlt || s.halted)

/-- Memory under any word: with `RI` the cell at the `MAR` held before the pulse takes the bus, also when `MI` moves
`MAR` in the same pulse, and every other cell is kept; without `RI` all are kept (R141, R148). -/
def Obligations.MemoryInUsesTheOldAddress : Prop :=
  ∀ (s : State) (cw : ControlWord) (u : State), s.MemInv → u = s.applyWord cw →
    ∀ x : Nibble, u.readMem x = if cw.ri = true ∧ x = s.mar then u.bus else s.readMem x

/-- The step advance (R151): every non-halted pulse, the halting one too, under any word, moves `STEP` on by one modulo
5, so an instruction that does not halt comes back to `STEP = 0` at its fifth pulse and not before. -/
def Obligations.StepAdvancesModuloFive : Prop :=
  (∀ (s : State) (cw : ControlWord), (s.applyWord cw).step.val = (s.step.val + 1) % 5) ∧
  (∀ s : State, s.halted = false → s.pulse.step.val = (s.step.val + 1) % 5) ∧
  (∀ s : State, s.Ready → (s.pulses 5).halted = false →
    (s.pulses 5).step = 0 ∧ ∀ k : Nat, 0 < k → k < 5 → (s.pulses k).step ≠ 0)

/-- `SU` and `FI` are neither source nor sink (R152): `SU` without `FI` and `EO` changes nothing, and `FI` changes the
two flags only. -/
def Obligations.SubtractAndLatchLinesAlone : Prop :=
  ControlLine.su.lineClass ≠ .source ∧ ControlLine.su.lineClass ≠ .sink ∧
  ControlLine.fi.lineClass ≠ .source ∧ ControlLine.fi.lineClass ≠ .sink ∧
  (∀ (s : State) (cw : ControlWord), cw.fi = false → cw.eo = false →
    s.applyWord { cw with su := true } = s.applyWord { cw with su := false }) ∧
  (∀ (s : State) (cw : ControlWord),
    (s.applyWord { cw with fi := true }).setFlags s.zf s.cf = s.applyWord { cw with fi := false })

/-- The two fetch micro-steps of every instruction, whatever `IR` and the flags hold (R97, R153, R154). -/
def Obligations.FetchMicroSteps : Prop :=
  ∀ s : State, s.halted = false →
    (s.step = 0 → s.pulse = { s with bus := zext8 s.pc, mar := s.pc, step := 1 }) ∧
    (s.step = 1 → s.pulse =
      { s with bus := s.readMem s.mar, ir := s.readMem s.mar, pc := s.pc + 1, step := 2 })

/-! ### Instructions as pulses -/

/-- LDA, STA, LDI and OUT as five pulses (R160 to R164; `MAR` and the bus by decision D3, log entry 3). -/
def Obligations.FivePulsesOfATransfer : Prop :=
  ∀ (s : State) (n : Nibble), s.Ready →
    (s.current = .lda n → s.pulses 5 =
      { s with a := s.readMem n, mar := n, ir := s.readMem s.pc, pc := s.pc + 1, bus := 0 }) ∧
    (s.current = .sta n → s.pulses 5 =
      { s with mem := Memory.write s.mem n s.a, mar := n, ir := s.readMem s.pc, pc := s.pc + 1, bus := 0 }) ∧
    (s.current = .ldi n → s.pulses 5 =
      { s with a := zext8 n, mar := s.pc, ir := s.readMem s.pc, pc := s.pc + 1, bus := 0 }) ∧
    (s.current = .out n → s.pulses 5 =
      { s with out := s.a, mar := s.pc, ir := s.readMem s.pc, pc := s.pc + 1, bus := 0 })

/-- ADD and SUB as five pulses (R170, R171; `B`, `MAR` and the bus by decision D3, log entry 3). -/
def Obligations.FivePulsesOfAnAddition : Prop :=
  ∀ (s : State) (n : Nibble) (su : Bool) (r : Byte), s.Ready →
    s.current = (if su then .sub n else .add n) → r = alu s.a (s.readMem n) su →
    s.pulses 5 =
      { s with a := r, b := s.readMem n, zf := r == 0, cf := r.ult s.a, mar := n, ir := s.readMem s.pc,
               pc := s.pc + 1, bus := r }

/-- NOP, JMP, JC and JZ as five pulses (R180 to R183; `MAR` and the bus by decision D3, log entry 3). -/
def Obligations.FivePulsesOfAJump : Prop :=
  ∀ (s : State) (n : Nibble), s.Ready →
    (s.current = .nop n → s.pulses 5 =
      { s with mar := s.pc, ir := s.readMem s.pc, pc := s.pc + 1, bus := 0 }) ∧
    (s.current = .jmp n → s.pulses 5 = { s with mar := s.pc, ir := s.readMem s.pc, pc := n, bus := 0 }) ∧
    (s.current = .jc n → s.pulses 5 =
      { s with mar := s.pc, ir := s.readMem s.pc, pc := if s.cf then n else s.pc + 1, bus := 0 }) ∧
    (s.current = .jz n → s.pulses 5 =
      { s with mar := s.pc, ir := s.readMem s.pc, pc := if s.zf then n else s.pc + 1, bus := 0 })

/-- HLT halts the machine at its third pulse, and no later pulse changes anything (R184; `STEP = 3` by decision D3, log
entry 3). -/
def Obligations.ThreePulsesOfAHalt : Prop :=
  ∀ (s : State) (n : Nibble) (k : Nat), s.Ready → s.current = .hlt n →
    (s.pulses 2).halted = false ∧
    s.pulses (3 + k) =
      { s with halted := true, mar := s.pc, ir := s.readMem s.pc, pc := s.pc + 1, bus := 0, step := 3 }

/-- A reserved opcode behaves as NOP, with its own byte in `IR` (R186). THE MODEL FOLLOWS THE SPEC'S DECISION D4 HERE
(log entry 4): the source gives these opcodes no behaviour beyond the fetch. -/
def Obligations.FivePulsesOfAReservedOpcode : Prop :=
  ∀ s : State, s.Ready → 9 ≤ (s.readMem s.pc).toNat / 16 → (s.readMem s.pc).toNat / 16 ≤ 13 →
    s.pulses 5 = { s with mar := s.pc, ir := s.readMem s.pc, pc := s.pc + 1, bus := 0 }

/-! ### The meanings: where each instruction completes, its result and its frame -/

/-- LDA and LDI answer, from every running state (a halted machine executes nothing: NothingFaultsOrIsRefused): the new
accumulator, the instruction's byte in `IR` (where the fetch put it), and all else kept but `MAR` (LDA), the bus and
`STEP`, which decision D3 fixes (R160, R162; log entry 3). -/
def Obligations.LoadsCompleteWithTheirFrame : Prop :=
  ∀ (n : Nibble) (s : State), s.halted = false →
    (∃ t, exec (.lda n) s = .next t ∧ t.a = s.readMem n ∧ t.mar = n ∧ t.bus = 0 ∧ t.step = 0 ∧
      t.b = s.b ∧ t.out = s.out ∧ t.pc = s.pc ∧ t.ir = encodeByte (.lda n) ∧ t.zf = s.zf ∧ t.cf = s.cf ∧ t.halted = s.halted ∧
      ∀ x : Nibble, t.readMem x = s.readMem x) ∧
    (∃ t, exec (.ldi n) s = .next t ∧ t.a.toNat = n.toNat ∧ t.mar = s.mar ∧ t.bus = 0 ∧ t.step = 0 ∧
      t.b = s.b ∧ t.out = s.out ∧ t.pc = s.pc ∧ t.ir = encodeByte (.ldi n) ∧ t.zf = s.zf ∧ t.cf = s.cf ∧ t.halted = s.halted ∧
      ∀ x : Nibble, t.readMem x = s.readMem x)

/-- STA answers, from every running state: every cell but the one at its data address reads as before, every register and
flag but `MAR`, the bus and `STEP` is kept (R161; `IR` holds its byte), and in a canonical memory the cell reads as
the accumulator. -/
def Obligations.StoreCompletesWithItsFrame : Prop :=
  ∀ (n : Nibble) (s : State), s.halted = false →
    ∃ t, exec (.sta n) s = .next t ∧ (∀ x : Nibble, x ≠ dataAddress n → t.readMem x = s.readMem x) ∧
      (s.MemInv → t.readMem (dataAddress n) = s.a) ∧ t.mar = n ∧ t.bus = 0 ∧ t.step = 0 ∧
      t.a = s.a ∧ t.b = s.b ∧ t.out = s.out ∧ t.pc = s.pc ∧ t.ir = encodeByte (.sta n) ∧ t.zf = s.zf ∧ t.cf = s.cf ∧
      t.halted = s.halted

/-- OUT answers, from every running state: the latch takes the accumulator and all else is kept but the bus and `STEP`
(R163; `IR` holds its byte). -/
def Obligations.OutputCompletesWithItsFrame : Prop :=
  ∀ (n : Nibble) (s : State), s.halted = false →
    ∃ t, exec (.out n) s = .next t ∧ t.out = s.a ∧ t.a = s.a ∧ t.b = s.b ∧ t.pc = s.pc ∧ t.ir = encodeByte (.out n) ∧
      t.mar = s.mar ∧ t.zf = s.zf ∧ t.cf = s.cf ∧ t.halted = s.halted ∧ t.bus = 0 ∧ t.step = 0 ∧
      ∀ x : Nibble, t.readMem x = s.readMem x

/-- ADD answers, from every running state: the wrapped sum, both flags, the operand in `B`; all else kept but `MAR`, the
bus and `STEP` (R170; `IR` holds its byte). -/
def Obligations.AddCompletesWithItsFrame : Prop :=
  ∀ (n : Nibble) (s : State), s.halted = false →
    ∃ t, exec (.add n) s = .next t ∧ t.a.toNat = (s.a.toNat + (s.readMem n).toNat) % 256 ∧
      (t.zf = true ↔ (s.a.toNat + (s.readMem n).toNat) % 256 = 0) ∧
      (t.cf = true ↔ 256 ≤ s.a.toNat + (s.readMem n).toNat) ∧
      t.b = s.readMem n ∧ t.mar = n ∧ t.bus = t.a ∧ t.step = 0 ∧
      t.out = s.out ∧ t.pc = s.pc ∧ t.ir = encodeByte (.add n) ∧ t.halted = s.halted ∧
      ∀ x : Nibble, t.readMem x = s.readMem x

/-- SUB answers, from every running state: the wrapped difference, both flags (carry: the subtrahend is not zero and
nothing was borrowed), the operand itself in `B`; all else kept but `MAR`, the bus and `STEP` (R171; `IR` holds its
byte). -/
def Obligations.SubCompletesWithItsFrame : Prop :=
  ∀ (n : Nibble) (s : State), s.halted = false →
    ∃ t, exec (.sub n) s = .next t ∧ (t.a.toNat : Int) = ((s.a.toNat : Int) - (s.readMem n).toNat) % 256 ∧
      (t.zf = true ↔ s.a = s.readMem n) ∧
      (t.cf = true ↔ 1 ≤ (s.readMem n).toNat ∧ (s.readMem n).toNat ≤ s.a.toNat) ∧
      t.b = s.readMem n ∧ t.mar = n ∧ t.bus = t.a ∧ t.step = 0 ∧
      t.out = s.out ∧ t.pc = s.pc ∧ t.ir = encodeByte (.sub n) ∧ t.halted = s.halted ∧
      ∀ x : Nibble, t.readMem x = s.readMem x

/-- JMP, JC and JZ answer, from every running state: the target if the jump is taken, the successor the fetch set if not;
all else kept but the bus and `STEP` (R181, R182, R183; `IR` holds the byte). -/
def Obligations.JumpsCompleteWithTheirFrame : Prop :=
  ∀ (n : Nibble) (s : State) (i : Instr) (taken : Bool),
    (i, taken) ∈ [(Instr.jmp n, true), (Instr.jc n, s.cf), (Instr.jz n, s.zf)] → s.halted = false →
    ∃ t, exec i s = .next t ∧ t.pc = (if taken then n else s.pc) ∧ t.a = s.a ∧ t.b = s.b ∧ t.out = s.out ∧
      t.ir = encodeByte i ∧ t.mar = s.mar ∧ t.zf = s.zf ∧ t.cf = s.cf ∧ t.halted = s.halted ∧ t.bus = 0 ∧ t.step = 0 ∧
      ∀ x : Nibble, t.readMem x = s.readMem x

/-- NOP and the five reserved opcodes answer, from every running state, and keep all but the bus and `STEP` (R180, R186;
`IR` holds the byte). For the reserved opcodes this is the spec's decision D4 (log entry 4). -/
def Obligations.NopAndReservedCompleteWithTheirFrame : Prop :=
  ∀ (n : Nibble) (s : State) (i : Instr),
    i ∈ [Instr.nop n, .reserved9 n, .reservedA n, .reservedB n, .reservedC n, .reservedD n] → s.halted = false →
    ∃ t, exec i s = .next t ∧ t.a = s.a ∧ t.b = s.b ∧ t.out = s.out ∧ t.pc = s.pc ∧ t.ir = encodeByte i ∧ t.mar = s.mar ∧
      t.zf = s.zf ∧ t.cf = s.cf ∧ t.halted = s.halted ∧ t.bus = 0 ∧ t.step = 0 ∧
      ∀ x : Nibble, t.readMem x = s.readMem x

/-- HLT answers, from every running state: halted, and all else kept but the bus and `STEP`, which stays 3 (R184; `STEP =
3` by decision D3, log entry 3; `IR` holds its byte). -/
def Obligations.HaltCompletesWithItsFrame : Prop :=
  ∀ (n : Nibble) (s : State), s.halted = false →
    ∃ t, exec (.hlt n) s = .next t ∧ t.halted = true ∧ t.step = 3 ∧ t.bus = 0 ∧ t.a = s.a ∧ t.b = s.b ∧
      t.out = s.out ∧ t.pc = s.pc ∧ t.ir = encodeByte (.hlt n) ∧ t.mar = s.mar ∧ t.zf = s.zf ∧ t.cf = s.cf ∧
      ∀ x : Nibble, t.readMem x = s.readMem x

/-- The result and the flags of ADD and SUB by case (R173): every pair of operands falls in one row. -/
def Obligations.ArithmeticFlagsByCase : Prop :=
  ∀ (n : Nibble) (s : State) (a m : Nat), s.halted = false → a = s.a.toNat → m = (s.readMem n).toNat →
    (∃ t, exec (.add n) s = .next t ∧
      (a + m < 256 → a + m ≠ 0 → t.a.toNat = a + m ∧ t.zf = false ∧ t.cf = false) ∧
      (a = 0 → m = 0 → t.a.toNat = 0 ∧ t.zf = true ∧ t.cf = false) ∧
      (a + m = 256 → t.a.toNat = 0 ∧ t.zf = true ∧ t.cf = true) ∧
      (256 < a + m → t.a.toNat = a + m - 256 ∧ t.zf = false ∧ t.cf = true)) ∧
    (∃ t, exec (.sub n) s = .next t ∧
      (m = 0 → a ≠ 0 → t.a.toNat = a ∧ t.zf = false ∧ t.cf = false) ∧
      (m = 0 → a = 0 → t.a.toNat = 0 ∧ t.zf = true ∧ t.cf = false) ∧
      (1 ≤ m → m < a → t.a.toNat = a - m ∧ t.zf = false ∧ t.cf = true) ∧
      (m = a → a ≠ 0 → t.a.toNat = 0 ∧ t.zf = true ∧ t.cf = true) ∧
      (a < m → t.a.toNat = a + 256 - m ∧ t.zf = false ∧ t.cf = false))

/-! ### Steps -/

/-- When the byte at the program counter decodes to an instruction, a step of a machine at a boundary and not halted is
that instruction's `exec` after the fetch, and the fetch is what micro-steps 0 and 1 do (R164, R265). -/
def Obligations.StepRunsTheDecodedInstruction : Prop :=
  ∀ (s : State) (i : Instr) (rest : List Byte), s.Ready → decode (s.readMem s.pc :: rest) = .ok (i, rest) →
    step s = exec i s.fetch ∧
    s.fetch = { s with mar := s.pc, ir := s.readMem s.pc, bus := s.readMem s.pc, pc := s.pc + 1, step := 2 }

/-- Every instruction answers from every state, in a halted one without changing it (R131), and every step answers, so
every run is safe (R155, R230: `pulse` and `reset` cannot fail). -/
def Obligations.NothingFaultsOrIsRefused : Prop :=
  (∀ (i : Instr) (s : State), ∃ t, exec i s = .next t) ∧
  (∀ (i : Instr) (s : State), s.halted = true → exec i s = .next s) ∧ (∀ (k : Nat) (s : State), s.SafeRun k)

/-- A step of the model is the pulses up to the next instruction boundary, from every state, halted or in the middle of
an instruction too: no byte gets lost between the decoder, the instruction it names and the three pulses of that
instruction's meaning (R6, R130, R164). The size of a step is the model's own (log entry 1); the words of the table
are decisions D3 and D4 (log entries 3 and 4). -/
def Obligations.StepIsThePulsesToTheBoundary : Prop :=
  ∀ s : State, step s = .next (s.pulses (5 - s.step.val))

/-- A run of `k` steps from a boundary is `5 * k` pulses (R164, R280, R131). That a step is a whole instruction is the
model's choice (log entry 1). -/
def Obligations.RunIsFivePulsesAStep : Prop :=
  ∀ (k : Nat) (s : State), s.AtBoundary → Sys2Proof.core.run k s = .next (s.pulses (5 * k))

/-- A run that executes `k` instructions other than HLT and then one HLT is halted after exactly `5 * k + 3` pulses
(R280, R281; the third pulse by decision D3, log entry 3; a step as an instruction: log entry 1). -/
def Obligations.HaltAfterFiveKPlusThreePulses : Prop :=
  ∀ (k : Nat) (s t : State), s.Ready → Sys2Proof.core.run k s = .next t → t.halted = false →
    t.current.opcode = .hlt →
    (s.pulses (5 * k + 3)).halted = true ∧ ∀ j : Nat, j < 5 * k + 3 → (s.pulses j).halted = false

/-- The counter and the instruction register during an instruction (R280, R282): `STEP` is the number of pulses modulo 5
while the machine runs, `IR` holds the byte of the instruction from the second pulse on and the earlier byte before,
and the machine halts within the five pulses exactly when the instruction is HLT, at the third. -/
def Obligations.CounterAndInstructionRegisterInStep : Prop :=
  ∀ (s : State) (k : Nat), s.Ready → k ≤ 5 →
    (s.pulses k).ir = (if k < 2 then s.ir else s.readMem s.pc) ∧
    ((s.pulses k).halted = true ↔ 3 ≤ k ∧ s.current.opcode = .hlt) ∧
    ((s.pulses k).halted = false → (s.pulses k).step.val = k % 5)

/-! ### Invariants -/

/-- The created machine: every element zero or false, memory reading 0 everywhere, and the invariants below hold of it
(R27, R260; the bus by decision D7, log entry 5). -/
def Obligations.CreatedMachineIsZeroAndMeetsTheInvariants : Prop :=
  ∀ s : State, s = State.reset →
    s.a = 0 ∧ s.b = 0 ∧ s.out = 0 ∧ s.pc = 0 ∧ s.ir = 0 ∧ s.mar = 0 ∧ s.zf = false ∧ s.cf = false ∧ s.bus = 0 ∧
    s.step = 0 ∧ s.halted = false ∧ (∀ x : Nibble, s.readMem x = 0) ∧ s.MemInv ∧ s.HaltInv ∧ s.FetchInv

/-- Every step and every operation of the host keeps memory in its canonical form. -/
def Obligations.CanonicalMemoryIsKept : Prop :=
  (∀ s t : State, s.MemInv → step s = .next t → t.MemInv) ∧
  (∀ (s : State) (op : Operation), s.MemInv → (s.perform op).MemInv) ∧
  (∀ s : State, s.Reachable → s.MemInv)

/-- Only HLT halts the machine (R184, R236, R248): a halted machine holds a HLT byte in `IR` and has `STEP = 3` (by
decision D3, log entry 3); every step and every operation keeps this. -/
def Obligations.OnlyHaltHaltsIsKept : Prop :=
  (∀ s t : State, s.HaltInv → step s = .next t → t.HaltInv) ∧
  (∀ (s : State) (op : Operation), s.HaltInv → (s.perform op).HaltInv)

/-- What the fetch has done so far (R153, R154, R282) is kept by every operation, pulses in the middle of an instruction
among them, so it holds of every reachable state. -/
def Obligations.FetchProgressIsKept : Prop :=
  (∀ (s : State) (op : Operation), s.FetchInv → (s.perform op).FetchInv) ∧
  (∀ s : State, s.Reachable → s.FetchInv)

/-- A step ends at an instruction boundary or in the halted machine, from every state. That a step runs on to the boundary,
from between two micro-steps too, is the model's choice of its size (log entry 1), not the spec's, whose unit is the
pulse (R6); that the pulses from there reach `STEP = 0` is R151. -/
def Obligations.StepEndsAtABoundaryOrHalted : Prop :=
  ∀ s t : State, step s = .next t → t.halted = true ∨ t.AtBoundary

/-! ### Rules of the whole machine -/

/-- Which instruction may write which element (R30, with R11 to R13, R17 to R19, R23): over one step from a boundary,
an element that changed names the instructions it can have been. -/
def Obligations.OnlyTheseInstructionsWriteTheseElements : Prop :=
  ∀ (s t : State) (o : Opcode), s.Ready → o = s.current.opcode → step s = .next t →
    t.ir = s.readMem s.pc ∧
    (t.a ≠ s.a → o = .lda ∨ o = .ldi ∨ o = .add ∨ o = .sub) ∧
    (t.b ≠ s.b → o = .add ∨ o = .sub) ∧
    (t.out ≠ s.out → o = .out) ∧
    (t.pc ≠ s.pc + 1 → o = .jmp ∨ o = .jc ∨ o = .jz) ∧
    (t.mar ≠ s.pc → o = .lda ∨ o = .add ∨ o = .sub ∨ o = .sta) ∧
    (t.mem ≠ s.mem → o = .sta) ∧
    (t.zf ≠ s.zf ∨ t.cf ≠ s.cf → o = .add ∨ o = .sub) ∧
    (t.halted = true ↔ o = .hlt)

/-- The complete set of control transfers (R185, R16): the successor, wrapping 15 to 0, or the operand of a JMP, a JC
with carry set or a JZ with zero set, and then always. -/
def Obligations.ControlTransfersAreTheseOnly : Prop :=
  ∀ (s t : State), s.Ready → step s = .next t →
    (t.pc.toNat = (s.pc.toNat + 1) % 16 ∧
      (∀ n, s.current ≠ .jmp n) ∧ (∀ n, s.current = .jc n → s.cf = false) ∧
      (∀ n, s.current = .jz n → s.zf = false)) ∨
    (s.current = .jmp t.pc ∨ (s.current = .jc t.pc ∧ s.cf = true) ∨ (s.current = .jz t.pc ∧ s.zf = true))

/-- The flags are sticky across instructions (R19, 90_conflicts.md C6): over any run that executes no ADD and no SUB
both keep their values. -/
def Obligations.FlagsPersistUntilArithmetic : Prop :=
  ∀ (k : Nat) (s t : State), s.AtBoundary →
    (∀ (j : Nat) (u : State), j < k → Sys2Proof.core.run j s = .next u → u.halted = false →
      u.current.opcode ≠ .add ∧ u.current.opcode ≠ .sub) →
    Sys2Proof.core.run k s = .next t → t.zf = s.zf ∧ t.cf = s.cf

/-- A halted machine leaves that state only by `reset` or a successful `assemble` (R23, R248): any sequence of pulses and
failing assemblies leaves it as it is, and `reset` and a successful `assemble` clear it. -/
def Obligations.HaltedUntilResetOrAssemble : Prop :=
  ∀ s : State, s.halted = true →
    (∀ ops : List Operation,
      (∀ op ∈ ops, op = .pulse ∨ ∃ text, op = .assemble text ∧ imageOf text = none) → s.performAll ops = s) ∧
    (∀ op : Operation, (s.perform op).halted = false ↔
      (op = .reset ∨ ∃ text, op = .assemble text ∧ imageOf text ≠ none))

/-- No program observes `B` or `OUT` (R13, R29): two machines at a boundary that differ only in `B` and `OUT` differ,
after any number of instructions, at most in `B` and `OUT`. -/
def Obligations.OperandRegisterAndLatchAreUnobservable : Prop :=
  ∀ (k : Nat) (s : State) (b o : Byte), s.AtBoundary →
    ∃ b' o' : Byte, ((s.setB b).setOut o).pulses (5 * k) = ((s.pulses (5 * k)).setB b').setOut o'

/-- An ignored operand has no effect on anything but `IR` itself (R65): two machines in micro-step 2 whose `IR` holds the
same opcode of the ignoring kind and any two operands stay equal but for `IR`. -/
def Obligations.IgnoredOperandHasNoEffect : Prop :=
  ∀ (s : State) (o : Opcode) (n n' : Nibble) (k : Nat), o.operandRole = .ignored → s.step = 2 → k ≤ 3 →
    (s.setIr (packByte (opcodeBits o) n)).pulses k =
      ((s.setIr (packByte (opcodeBits o) n')).pulses k).setIr (packByte (opcodeBits o) n)

/-- A store is seen by the very next fetch, and the running store is not re-read (R54, R55). -/
def Obligations.StoreIsSeenByTheNextFetch : Prop :=
  ∀ (s : State) (n : Nibble), s.Ready → s.MemInv → s.current = .sta n →
    ∃ t, step s = .next t ∧ t.ir = s.readMem s.pc ∧ t.pc = s.pc + 1 ∧ t.readMem n = s.a ∧
      (n = s.pc + 1 → t.current = decodeByte s.a) ∧ (n ≠ s.pc + 1 → t.current = decodeByte (s.readMem (s.pc + 1)))

/-! ### Reset -/

/-- The operation `reset` (R262, R263): from every state it zeroes the six registers, the flags, `STEP` and `HALTED`,
keeps every byte of memory, and is idempotent; the bus is zeroed by decision D7 (log entry 5). -/
def Obligations.ResetClearsAllButMemory : Prop :=
  ∀ s u : State, u = s.perform .reset →
    u.a = 0 ∧ u.b = 0 ∧ u.out = 0 ∧ u.pc = 0 ∧ u.ir = 0 ∧ u.mar = 0 ∧ u.zf = false ∧ u.cf = false ∧
    u.step = 0 ∧ u.halted = false ∧ u.bus = 0 ∧ (∀ x : Nibble, u.readMem x = s.readMem x) ∧ u.perform .reset = u

/-- A reset between the micro-steps of a STA (R272): after its third pulse memory is untouched, after its fourth the
write stays; in both the machine is at an instruction boundary again. The micro-step is decision D3 (log entry 3). -/
def Obligations.ResetBetweenMicroStepsOfAStore : Prop :=
  ∀ (s : State) (n : Nibble), s.Ready → s.current = .sta n →
    (s.pulses 3).doReset.mem = s.mem ∧ (s.pulses 4).doReset.mem = Memory.write s.mem n s.a ∧
    (s.pulses 3).doReset.Ready ∧ (s.pulses 4).doReset.Ready

/-! ### The program loader -/

/-- On any validation failure `assemble` answers false and changes nothing (R215). A text fails exactly when one of its
processed lines has no byte, so a text whose processed lines all have one succeeds. A line has none if it has more
than two tokens, a first of two tokens that is no mnemonic, a second that is no byte literal, or a single token that is
neither a byte literal nor `OUT` nor `HLT`; the lines that have one are LineFormsAssemble. -/
def Obligations.FailedAssemblyChangesNothing : Prop :=
  (∀ (s : State) (text : Text), imageOf text = none → s.assemble text = (false, s)) ∧
  (∀ text : Text, imageOf text = none ↔ ∃ line ∈ (splitLines text).take 16, lineByte line = none) ∧
  (∀ line : Text, 2 < (tokens line).length → lineByte line = none) ∧
  (∀ line m t : Text, tokens line = [m, t] → mnemonic? m = none ∨ byteLiteral? t = none →
    lineByte line = none) ∧
  (∀ line t : Text, tokens line = [t] → byteLiteral? t = none → mnemonic? t ≠ some .out →
    mnemonic? t ≠ some .hlt → lineByte line = none)

/-- A successful `assemble` answers true, replaces all sixteen cells by the image and leaves every register, both flags,
`STEP` and `HALTED` as after `reset` (R216, R264; the bus by decision D7, log entry 5). -/
def Obligations.SuccessfulAssemblyLoadsAndResets : Prop :=
  ∀ (s : State) (text : Text) (img : Image) (u : State), imageOf text = some img → u = (s.assemble text).2 →
    (s.assemble text).1 = true ∧ img.wellFormed = true ∧
    (∀ x : Nibble, u.readMem x = img.getD x.toNat 0) ∧ u.MemInv ∧
    u.a = 0 ∧ u.b = 0 ∧ u.out = 0 ∧ u.pc = 0 ∧ u.ir = 0 ∧ u.mar = 0 ∧ u.zf = false ∧ u.cf = false ∧
    u.step = 0 ∧ u.halted = false ∧ u.bus = 0

/-- Line `i` defines the byte at address `i`, and an address without a line holds 0 (R203, R205, R214; the fill is
decision D12, log entry 12). -/
def Obligations.LineDefinesTheByteAtItsAddress : Prop :=
  ∀ (text : Text) (img : Image), imageOf text = some img → ∀ i : Nat, i < 16 →
    match (splitLines text)[i]? with
    | some line => lineByte line = some (img.getD i 0)
    | none => img.getD i 0 = 0

/-- Lines past the sixteenth are neither compiled nor validated (R203, R218): texts with the same first sixteen lines have
the same image or both fail. So whatever follows sixteen lines, each ended by a line feed, makes no difference, also
where the sixteenth is empty; nor what follows a text of sixteen lines and a line feed (line ends: decision D11, log
entry 11). -/
def Obligations.LinesPastTheSixteenthAreIgnored : Prop :=
  (∀ text other : Text, (splitLines text).take 16 = (splitLines other).take 16 → imageOf text = imageOf other) ∧
  (∀ (lines : List Text) (more : Text), lines.length = 16 → (∀ l ∈ lines, ∀ c ∈ l, c.toNat ≠ 10) →
    (splitLines ((lines.flatMap fun l => l ++ [Char.ofNat 10]) ++ more)).take 16 = lines ∧
    imageOf ((lines.flatMap fun l => l ++ [Char.ofNat 10]) ++ more) =
      imageOf (lines.flatMap fun l => l ++ [Char.ofNat 10])) ∧
  (∀ text more : Text, (splitLines text).length = 16 →
    imageOf (text ++ Char.ofNat 10 :: more) = imageOf text)

/-- Any 16-byte image can be written as a program text (R201). -/
def Obligations.EveryImageIsReachable : Prop :=
  ∀ img : Image, img.wellFormed = true → ∃ text : Text, imageOf text = some img

/-- The byte of each line form, with any whitespace around and between the tokens: an empty line or one of whitespace is 0
(R205); a byte literal is its value (R206); `OUT` or `HLT` alone, in any mixture of cases, is the opcode in the high
half and 0 in the low half (R207); a mnemonic in any mixture of cases and a byte literal is the opcode in the high half
and the literal's low half in the low half (R204, R209, R210, R211; whitespace, case folding and the dropped high half
are decisions D11, D13 and D9, log entries 11, 13 and 9). -/
def Obligations.LineFormsAssemble : Prop :=
  ∀ before between after : Text, (∀ c ∈ before ++ between ++ after, isSpace c = true) →
    lineByte before = some 0 ∧
    (∀ (lit : Text) (v : Byte), byteLiteral? lit = some v → lineByte (before ++ lit ++ after) = some v) ∧
    (∀ (o : Opcode) (tok : Text), o = .out ∨ o = .hlt → some (tok.map foldCase) = o.name →
      ∃ b : Byte, lineByte (before ++ tok ++ after) = some b ∧ b.toNat = 16 * (opcodeBits o).toNat) ∧
    (∀ (o : Opcode) (tok lit : Text) (v : Byte), o ∈ loaderOpcodes → some (tok.map foldCase) = o.name →
      byteLiteral? lit = some v → between ≠ [] →
      ∃ b : Byte, lineByte (before ++ tok ++ between ++ lit ++ after) = some b ∧
        b.toNat = 16 * (opcodeBits o).toNat + v.toNat % 16)

/-- A byte literal is one or more decimal digits with a value of at most 255, leading zeros allowed, and nothing else is
(R213: decision D10, log entry 10). -/
def Obligations.ByteLiteralsAreDecimalBytes : Prop :=
  ∀ (tok : Text) (v : Byte), byteLiteral? tok = some v ↔
    tok ≠ [] ∧ (∀ c ∈ tok, 48 ≤ c.toNat ∧ c.toNat ≤ 57) ∧
    tok.foldl (fun acc c => acc * 10 + (c.toNat - 48)) 0 = v.toNat

/-- The disassembly of an image of loader instructions, one line a byte, assembles to the image (R70, R72; the convention
is decision D2, log entry 17), and a NOP or a reserved opcode disassembles to a line the loader rejects. -/
def Obligations.DisassemblyReassembles : Prop :=
  (∀ img : Image, img.wellFormed = true → (∀ b ∈ img, opcodeOf (opcodeField b) ∈ loaderOpcodes) →
    imageOf (img.flatMap fun b => disassemble b ++ [Char.ofNat 10]) = some img) ∧
  (∀ b : Byte, opcodeOf (opcodeField b) ∉ loaderOpcodes → lineByte (disassemble b) = none)

/-! ### The end of a run -/

/-- The end of a run (R247; the definition is the spec's decision D19): the end state of a run is unique, a run has one
exactly when some pulse leaves it halted, further pulses do not change it, and its conventional result is the output
latch and the sixteen cells of memory. -/
def Obligations.EndStateIsUniqueAndKept : Prop :=
  ∀ s : State,
    (∀ t u : State, s.EndsIn t → s.EndsIn u → t = u) ∧
    ((∃ t, s.EndsIn t) ↔ ∃ k, (s.pulses k).Ended) ∧
    (∀ (t : State) (k : Nat), s.EndsIn t → (s.pulses k).Ended → s.pulses k = t) ∧
    (∀ (t : State) (k : Nat), s.EndsIn t → t.pulses k = t ∧ t.result.out = t.out ∧ t.result.mem.length = 16 ∧
      ∀ x : Nibble, t.result.mem[x.toNat]? = some (t.readMem x))
end

