-- ==== Sys2Proof/Laws/Memory.lean ====
section
/-! SUPPORT. The laws of memory: a read after a write, the canonical form, and memories filled from an image. -/

namespace Sys2Proof.Machine.Memory

/-- A store leaves every other address alone, in canonical form or not. -/
theorem lookup_store_other (m : Memory) (x y : Nat) (v : Byte) (h : y ≠ x) :
    lookup (store m x v) y = lookup m y := by
  induction m with
  | nil => by_cases hv : v = Config.memReset <;> simp [store, lookup, hv, h.symm]
  | cons cell rest ih =>
    obtain ⟨k, w⟩ := cell
    simp only [store]
    split
    · split <;> simp [lookup, h.symm]
    · split
      · next hk => subst hk; split <;> simp [lookup, h.symm]
      · simp [lookup, ih]

/-- In a list that rises from above an address, the address is not listed. -/
theorem lookup_of_risingFrom {m : Memory} {low x : Nat} (hm : risingFrom low m = true) (h : x < low) :
    lookup m x = Config.memReset := by
  induction m generalizing low with
  | nil => rfl
  | cons cell rest ih =>
    obtain ⟨k, w⟩ := cell
    simp only [risingFrom, Bool.and_eq_true, decide_eq_true_eq] at hm
    have hk : k ≠ x := by omega
    simp [lookup, hk, ih hm.2 (by omega)]

/-- A store is read back, in canonical form. -/
theorem lookup_store_same {m : Memory} {low : Nat} (hm : risingFrom low m = true) (x : Nat) (v : Byte) :
    lookup (store m x v) x = v := by
  induction m generalizing low with
  | nil => by_cases hv : v = Config.memReset <;> simp [store, lookup, hv]
  | cons cell rest ih =>
    obtain ⟨k, w⟩ := cell
    simp only [risingFrom, Bool.and_eq_true, decide_eq_true_eq] at hm
    simp only [store]
    split
    · next hlt =>
      split
      · next hv => simp [lookup, show k ≠ x by omega, lookup_of_risingFrom hm.2 (show x < k + 1 by omega), hv]
      · simp [lookup]
    · split
      · next hk =>
        split
        · next hv => rw [lookup_of_risingFrom hm.2 (by omega), hv]
        · simp [lookup]
      · next hk => simp [lookup, Ne.symm hk, ih hm.2]

/-- The order condition weakens downwards. -/
theorem risingFrom_mono {m : Memory} {low low' : Nat} (hm : risingFrom low m = true) (h : low' ≤ low) :
    risingFrom low' m = true := by
  cases m with
  | nil => rfl
  | cons cell rest =>
    obtain ⟨k, w⟩ := cell
    simp only [risingFrom, Bool.and_eq_true, decide_eq_true_eq] at hm ⊢
    exact ⟨⟨⟨by omega, hm.1.1.2⟩, hm.1.2⟩, hm.2⟩

/-- A store inside the address space keeps the order and the canonical entries. -/
theorem risingFrom_store {m : Memory} {low x : Nat} {v : Byte} (hm : risingFrom low m = true) (hx : low ≤ x)
    (hs : x < Config.memSize) : risingFrom low (store m x v) = true := by
  induction m generalizing low with
  | nil => by_cases hv : v = Config.memReset <;> simp [store, risingFrom, hv, hx, hs]
  | cons cell rest ih =>
    obtain ⟨k, w⟩ := cell
    simp only [risingFrom, Bool.and_eq_true, decide_eq_true_eq] at hm
    obtain ⟨⟨⟨hlow, hk⟩, hw⟩, hrest⟩ := hm
    simp only [store]
    split
    · next hlt =>
      split
      · simp [risingFrom, hlow, hk, hw, hrest]
      · next hv => simp [risingFrom, hx, hs, hv, hk, hw, hrest, show x + 1 ≤ k by omega]
    · split
      · next heq =>
        split
        · exact risingFrom_mono hrest (by omega)
        · next hv => subst heq; simp [risingFrom, hlow, hk, hv, hrest]
      · next hne => simp [risingFrom, hlow, hk, hw, ih hrest (show k + 1 ≤ x by omega)]

/-- The bytes listed from an address on are above it and canonical. -/
theorem risingFrom_ofBytes (bytes : List Byte) (low : Nat) (h : low + bytes.length ≤ Config.memSize) :
    risingFrom low (ofBytes low bytes) = true := by
  induction bytes generalizing low with
  | nil => rfl
  | cons v rest ih =>
    simp only [List.length_cons] at h
    have hrest := ih (low + 1) (by omega)
    simp only [ofBytes]
    split
    · exact risingFrom_mono hrest (by omega)
    · next hv => simp [risingFrom, hv, hrest, show low < Config.memSize by omega]

/-- A byte listed from an address on is read at its place. -/
theorem lookup_ofBytes (bytes : List Byte) (low i : Nat) :
    lookup (ofBytes low bytes) (low + i) = bytes.getD i Config.memReset := by
  induction bytes generalizing low i with
  | nil => rfl
  | cons v rest ih =>
    have hskip : ∀ (b : List Byte) (l : Nat), lookup (ofBytes (l + 1) b) l = Config.memReset := by
      intro b
      suffices h : ∀ (l x : Nat), x < l → lookup (ofBytes l b) x = Config.memReset from
        fun l => h (l + 1) l (by omega)
      induction b with
      | nil => intros; rfl
      | cons w b' ihb =>
        intro l x hx
        simp only [ofBytes]
        split
        · exact ihb (l + 1) x (by omega)
        · simp [lookup, show l ≠ x by omega, ihb (l + 1) x (by omega)]
    cases i with
    | zero =>
      simp only [ofBytes]
      split
      · next hv => simp [hskip, hv]
      · simp [lookup]
    | succ j =>
      have hj := ih (low + 1) j
      rw [show low + 1 + j = low + (j + 1) by omega] at hj
      simp only [ofBytes]
      split
      · simp [hj]
      · simp [lookup, hj]

/-- A write keeps the canonical form. -/
theorem wf_write {m : Memory} (hm : wf m = true) (a : Nibble) (v : Byte) : wf (write m a v) = true :=
  risingFrom_store hm (Nat.zero_le _) a.isLt

/-- A read after a write to the same address gives the value written. -/
theorem read_write_same {m : Memory} (hm : wf m = true) (a : Nibble) (v : Byte) : read (write m a v) a = v :=
  lookup_store_same hm a.toNat v

/-- A write leaves every other address alone. -/
theorem read_write_other (m : Memory) {a x : Nibble} (v : Byte) (h : x ≠ a) :
    read (write m a v) x = read m x :=
  lookup_store_other m a.toNat x.toNat v fun hn => h (BitVec.eq_of_toNat_eq hn)

/-- Both cases of a read after a write at once. -/
theorem read_write {m : Memory} (hm : wf m = true) (a x : Nibble) (v : Byte) :
    read (write m a v) x = if x = a then v else read m x := by
  split
  · next h => rw [h, read_write_same hm]
  · next h => exact read_write_other m v h

/-- A memory filled from an image is in canonical form. -/
theorem wf_ofImage (img : Image) : wf (ofImage img) = true :=
  risingFrom_ofBytes _ 0 (by simp [Config.memSize])

/-- A memory filled from an image holds byte `i` at address `i`. -/
theorem read_ofImage (img : Image) (a : Nibble) : read (ofImage img) a = img.getD a.toNat Config.memReset := by
  have h := lookup_ofBytes (img.take Config.memSize) 0 a.toNat
  rw [Nat.zero_add] at h
  have ha : a.toNat < Config.memSize := a.isLt
  simp only [read, ofImage, h, List.getD_eq_getElem?_getD, List.getElem?_take, ha, if_true]

/-- In canonical form, memories that read the same at every address from `low` on are equal. -/
theorem eq_of_lookup_eq {m m' : Memory} {low : Nat} (hm : risingFrom low m = true)
    (hm' : risingFrom low m' = true) (h : ∀ x, lookup m x = lookup m' x) : m = m' := by
  induction m generalizing m' low with
  | nil =>
    cases m' with
    | nil => rfl
    | cons cell' rest' =>
      obtain ⟨k', w'⟩ := cell'
      simp only [risingFrom, Bool.and_eq_true, decide_eq_true_eq] at hm'
      have := h k'
      simp [lookup] at this
      exact absurd this.symm hm'.1.2
  | cons cell rest ih =>
    obtain ⟨k, w⟩ := cell
    simp only [risingFrom, Bool.and_eq_true, decide_eq_true_eq] at hm
    cases m' with
    | nil =>
      have := h k
      simp [lookup] at this
      exact absurd this hm.1.2
    | cons cell' rest' =>
      obtain ⟨k', w'⟩ := cell'
      simp only [risingFrom, Bool.and_eq_true, decide_eq_true_eq] at hm'
      have hk : k = k' := by
        rcases Nat.lt_trichotomy k k' with hlt | heq | hgt
        · have hx := h k
          simp [lookup, show k' ≠ k by omega,
            lookup_of_risingFrom hm'.2 (show k < k' + 1 by omega)] at hx
          exact absurd hx hm.1.2
        · exact heq
        · have hx := h k'
          simp [lookup, show k ≠ k' by omega,
            lookup_of_risingFrom hm.2 (show k' < k + 1 by omega)] at hx
          exact absurd hx.symm hm'.1.2
      subst hk
      have hw : w = w' := by simpa [lookup] using h k
      subst hw
      have hrest : rest = rest' := ih hm.2 hm'.2 fun x => by
        by_cases hx : k = x
        · subst hx
          rw [lookup_of_risingFrom hm.2 (by omega), lookup_of_risingFrom hm'.2 (by omega)]
        · simpa [lookup, hx] using h x
      rw [hrest]

end Sys2Proof.Machine.Memory
end

