-- ==== Sys2Proof/Laws/State.lean ====
section
/-! SUPPORT. What each setter leaves in each element of the state: one lemma per element and setter, true by rfl. -/

namespace Sys2Proof.Machine.State

variable (s : State)

@[simp] theorem setA_a (v : Byte) : (s.setA v).a = v := rfl
@[simp] theorem setA_b (v : Byte) : (s.setA v).b = s.b := rfl
@[simp] theorem setA_out (v : Byte) : (s.setA v).out = s.out := rfl
@[simp] theorem setA_pc (v : Byte) : (s.setA v).pc = s.pc := rfl
@[simp] theorem setA_ir (v : Byte) : (s.setA v).ir = s.ir := rfl
@[simp] theorem setA_mar (v : Byte) : (s.setA v).mar = s.mar := rfl
@[simp] theorem setA_zf (v : Byte) : (s.setA v).zf = s.zf := rfl
@[simp] theorem setA_cf (v : Byte) : (s.setA v).cf = s.cf := rfl
@[simp] theorem setA_mem (v : Byte) : (s.setA v).mem = s.mem := rfl
@[simp] theorem setA_bus (v : Byte) : (s.setA v).bus = s.bus := rfl
@[simp] theorem setA_step (v : Byte) : (s.setA v).step = s.step := rfl
@[simp] theorem setA_halted (v : Byte) : (s.setA v).halted = s.halted := rfl

@[simp] theorem setB_a (v : Byte) : (s.setB v).a = s.a := rfl
@[simp] theorem setB_b (v : Byte) : (s.setB v).b = v := rfl
@[simp] theorem setB_out (v : Byte) : (s.setB v).out = s.out := rfl
@[simp] theorem setB_pc (v : Byte) : (s.setB v).pc = s.pc := rfl
@[simp] theorem setB_ir (v : Byte) : (s.setB v).ir = s.ir := rfl
@[simp] theorem setB_mar (v : Byte) : (s.setB v).mar = s.mar := rfl
@[simp] theorem setB_zf (v : Byte) : (s.setB v).zf = s.zf := rfl
@[simp] theorem setB_cf (v : Byte) : (s.setB v).cf = s.cf := rfl
@[simp] theorem setB_mem (v : Byte) : (s.setB v).mem = s.mem := rfl
@[simp] theorem setB_bus (v : Byte) : (s.setB v).bus = s.bus := rfl
@[simp] theorem setB_step (v : Byte) : (s.setB v).step = s.step := rfl
@[simp] theorem setB_halted (v : Byte) : (s.setB v).halted = s.halted := rfl

@[simp] theorem setOut_a (v : Byte) : (s.setOut v).a = s.a := rfl
@[simp] theorem setOut_b (v : Byte) : (s.setOut v).b = s.b := rfl
@[simp] theorem setOut_out (v : Byte) : (s.setOut v).out = v := rfl
@[simp] theorem setOut_pc (v : Byte) : (s.setOut v).pc = s.pc := rfl
@[simp] theorem setOut_ir (v : Byte) : (s.setOut v).ir = s.ir := rfl
@[simp] theorem setOut_mar (v : Byte) : (s.setOut v).mar = s.mar := rfl
@[simp] theorem setOut_zf (v : Byte) : (s.setOut v).zf = s.zf := rfl
@[simp] theorem setOut_cf (v : Byte) : (s.setOut v).cf = s.cf := rfl
@[simp] theorem setOut_mem (v : Byte) : (s.setOut v).mem = s.mem := rfl
@[simp] theorem setOut_bus (v : Byte) : (s.setOut v).bus = s.bus := rfl
@[simp] theorem setOut_step (v : Byte) : (s.setOut v).step = s.step := rfl
@[simp] theorem setOut_halted (v : Byte) : (s.setOut v).halted = s.halted := rfl

@[simp] theorem setPc_a (v : Nibble) : (s.setPc v).a = s.a := rfl
@[simp] theorem setPc_b (v : Nibble) : (s.setPc v).b = s.b := rfl
@[simp] theorem setPc_out (v : Nibble) : (s.setPc v).out = s.out := rfl
@[simp] theorem setPc_pc (v : Nibble) : (s.setPc v).pc = v := rfl
@[simp] theorem setPc_ir (v : Nibble) : (s.setPc v).ir = s.ir := rfl
@[simp] theorem setPc_mar (v : Nibble) : (s.setPc v).mar = s.mar := rfl
@[simp] theorem setPc_zf (v : Nibble) : (s.setPc v).zf = s.zf := rfl
@[simp] theorem setPc_cf (v : Nibble) : (s.setPc v).cf = s.cf := rfl
@[simp] theorem setPc_mem (v : Nibble) : (s.setPc v).mem = s.mem := rfl
@[simp] theorem setPc_bus (v : Nibble) : (s.setPc v).bus = s.bus := rfl
@[simp] theorem setPc_step (v : Nibble) : (s.setPc v).step = s.step := rfl
@[simp] theorem setPc_halted (v : Nibble) : (s.setPc v).halted = s.halted := rfl

@[simp] theorem setIr_a (v : Byte) : (s.setIr v).a = s.a := rfl
@[simp] theorem setIr_b (v : Byte) : (s.setIr v).b = s.b := rfl
@[simp] theorem setIr_out (v : Byte) : (s.setIr v).out = s.out := rfl
@[simp] theorem setIr_pc (v : Byte) : (s.setIr v).pc = s.pc := rfl
@[simp] theorem setIr_ir (v : Byte) : (s.setIr v).ir = v := rfl
@[simp] theorem setIr_mar (v : Byte) : (s.setIr v).mar = s.mar := rfl
@[simp] theorem setIr_zf (v : Byte) : (s.setIr v).zf = s.zf := rfl
@[simp] theorem setIr_cf (v : Byte) : (s.setIr v).cf = s.cf := rfl
@[simp] theorem setIr_mem (v : Byte) : (s.setIr v).mem = s.mem := rfl
@[simp] theorem setIr_bus (v : Byte) : (s.setIr v).bus = s.bus := rfl
@[simp] theorem setIr_step (v : Byte) : (s.setIr v).step = s.step := rfl
@[simp] theorem setIr_halted (v : Byte) : (s.setIr v).halted = s.halted := rfl

@[simp] theorem setMar_a (v : Nibble) : (s.setMar v).a = s.a := rfl
@[simp] theorem setMar_b (v : Nibble) : (s.setMar v).b = s.b := rfl
@[simp] theorem setMar_out (v : Nibble) : (s.setMar v).out = s.out := rfl
@[simp] theorem setMar_pc (v : Nibble) : (s.setMar v).pc = s.pc := rfl
@[simp] theorem setMar_ir (v : Nibble) : (s.setMar v).ir = s.ir := rfl
@[simp] theorem setMar_mar (v : Nibble) : (s.setMar v).mar = v := rfl
@[simp] theorem setMar_zf (v : Nibble) : (s.setMar v).zf = s.zf := rfl
@[simp] theorem setMar_cf (v : Nibble) : (s.setMar v).cf = s.cf := rfl
@[simp] theorem setMar_mem (v : Nibble) : (s.setMar v).mem = s.mem := rfl
@[simp] theorem setMar_bus (v : Nibble) : (s.setMar v).bus = s.bus := rfl
@[simp] theorem setMar_step (v : Nibble) : (s.setMar v).step = s.step := rfl
@[simp] theorem setMar_halted (v : Nibble) : (s.setMar v).halted = s.halted := rfl

@[simp] theorem setFlags_a (z c : Bool) : (s.setFlags z c).a = s.a := rfl
@[simp] theorem setFlags_b (z c : Bool) : (s.setFlags z c).b = s.b := rfl
@[simp] theorem setFlags_out (z c : Bool) : (s.setFlags z c).out = s.out := rfl
@[simp] theorem setFlags_pc (z c : Bool) : (s.setFlags z c).pc = s.pc := rfl
@[simp] theorem setFlags_ir (z c : Bool) : (s.setFlags z c).ir = s.ir := rfl
@[simp] theorem setFlags_mar (z c : Bool) : (s.setFlags z c).mar = s.mar := rfl
@[simp] theorem setFlags_zf (z c : Bool) : (s.setFlags z c).zf = z := rfl
@[simp] theorem setFlags_cf (z c : Bool) : (s.setFlags z c).cf = c := rfl
@[simp] theorem setFlags_mem (z c : Bool) : (s.setFlags z c).mem = s.mem := rfl
@[simp] theorem setFlags_bus (z c : Bool) : (s.setFlags z c).bus = s.bus := rfl
@[simp] theorem setFlags_step (z c : Bool) : (s.setFlags z c).step = s.step := rfl
@[simp] theorem setFlags_halted (z c : Bool) : (s.setFlags z c).halted = s.halted := rfl

@[simp] theorem setMem_a (m : Memory) : (s.setMem m).a = s.a := rfl
@[simp] theorem setMem_b (m : Memory) : (s.setMem m).b = s.b := rfl
@[simp] theorem setMem_out (m : Memory) : (s.setMem m).out = s.out := rfl
@[simp] theorem setMem_pc (m : Memory) : (s.setMem m).pc = s.pc := rfl
@[simp] theorem setMem_ir (m : Memory) : (s.setMem m).ir = s.ir := rfl
@[simp] theorem setMem_mar (m : Memory) : (s.setMem m).mar = s.mar := rfl
@[simp] theorem setMem_zf (m : Memory) : (s.setMem m).zf = s.zf := rfl
@[simp] theorem setMem_cf (m : Memory) : (s.setMem m).cf = s.cf := rfl
@[simp] theorem setMem_mem (m : Memory) : (s.setMem m).mem = m := rfl
@[simp] theorem setMem_bus (m : Memory) : (s.setMem m).bus = s.bus := rfl
@[simp] theorem setMem_step (m : Memory) : (s.setMem m).step = s.step := rfl
@[simp] theorem setMem_halted (m : Memory) : (s.setMem m).halted = s.halted := rfl

@[simp] theorem setBus_a (v : Byte) : (s.setBus v).a = s.a := rfl
@[simp] theorem setBus_b (v : Byte) : (s.setBus v).b = s.b := rfl
@[simp] theorem setBus_out (v : Byte) : (s.setBus v).out = s.out := rfl
@[simp] theorem setBus_pc (v : Byte) : (s.setBus v).pc = s.pc := rfl
@[simp] theorem setBus_ir (v : Byte) : (s.setBus v).ir = s.ir := rfl
@[simp] theorem setBus_mar (v : Byte) : (s.setBus v).mar = s.mar := rfl
@[simp] theorem setBus_zf (v : Byte) : (s.setBus v).zf = s.zf := rfl
@[simp] theorem setBus_cf (v : Byte) : (s.setBus v).cf = s.cf := rfl
@[simp] theorem setBus_mem (v : Byte) : (s.setBus v).mem = s.mem := rfl
@[simp] theorem setBus_bus (v : Byte) : (s.setBus v).bus = v := rfl
@[simp] theorem setBus_step (v : Byte) : (s.setBus v).step = s.step := rfl
@[simp] theorem setBus_halted (v : Byte) : (s.setBus v).halted = s.halted := rfl

@[simp] theorem setStep_a (k : Fin Config.stepModulus) : (s.setStep k).a = s.a := rfl
@[simp] theorem setStep_b (k : Fin Config.stepModulus) : (s.setStep k).b = s.b := rfl
@[simp] theorem setStep_out (k : Fin Config.stepModulus) : (s.setStep k).out = s.out := rfl
@[simp] theorem setStep_pc (k : Fin Config.stepModulus) : (s.setStep k).pc = s.pc := rfl
@[simp] theorem setStep_ir (k : Fin Config.stepModulus) : (s.setStep k).ir = s.ir := rfl
@[simp] theorem setStep_mar (k : Fin Config.stepModulus) : (s.setStep k).mar = s.mar := rfl
@[simp] theorem setStep_zf (k : Fin Config.stepModulus) : (s.setStep k).zf = s.zf := rfl
@[simp] theorem setStep_cf (k : Fin Config.stepModulus) : (s.setStep k).cf = s.cf := rfl
@[simp] theorem setStep_mem (k : Fin Config.stepModulus) : (s.setStep k).mem = s.mem := rfl
@[simp] theorem setStep_bus (k : Fin Config.stepModulus) : (s.setStep k).bus = s.bus := rfl
@[simp] theorem setStep_step (k : Fin Config.stepModulus) : (s.setStep k).step = k := rfl
@[simp] theorem setStep_halted (k : Fin Config.stepModulus) : (s.setStep k).halted = s.halted := rfl

@[simp] theorem setHalted_a (h : Bool) : (s.setHalted h).a = s.a := rfl
@[simp] theorem setHalted_b (h : Bool) : (s.setHalted h).b = s.b := rfl
@[simp] theorem setHalted_out (h : Bool) : (s.setHalted h).out = s.out := rfl
@[simp] theorem setHalted_pc (h : Bool) : (s.setHalted h).pc = s.pc := rfl
@[simp] theorem setHalted_ir (h : Bool) : (s.setHalted h).ir = s.ir := rfl
@[simp] theorem setHalted_mar (h : Bool) : (s.setHalted h).mar = s.mar := rfl
@[simp] theorem setHalted_zf (h : Bool) : (s.setHalted h).zf = s.zf := rfl
@[simp] theorem setHalted_cf (h : Bool) : (s.setHalted h).cf = s.cf := rfl
@[simp] theorem setHalted_mem (h : Bool) : (s.setHalted h).mem = s.mem := rfl
@[simp] theorem setHalted_bus (h : Bool) : (s.setHalted h).bus = s.bus := rfl
@[simp] theorem setHalted_step (h : Bool) : (s.setHalted h).step = s.step := rfl
@[simp] theorem setHalted_halted (h : Bool) : (s.setHalted h).halted = h := rfl

end Sys2Proof.Machine.State
end

