-- ==== Sys2Proof/Laws/Word.lean ====
section
/-! SUPPORT. The bit-field helpers of Decode.lean: halves of a byte, packing, and the two opcode maps. -/

namespace Sys2Proof

@[simp] theorem low4_zext8 (n : Nibble) : low4 (zext8 n) = n := by
  ext i hi
  simp [low4, zext8, hi, show i < 8 by omega]

@[simp] theorem high4_zext8 (n : Nibble) : high4 (zext8 n) = 0 := by
  ext i hi
  simp [high4, zext8]

/-- A packed byte, bit by bit. -/
theorem getLsbD_packByte (op n : Nibble) (i : Nat) :
    (packByte op n).getLsbD i = if i < 4 then n.getLsbD i else op.getLsbD (i - 4) := by
  by_cases h8 : i < 8
  · by_cases h4 : i < 4
    · simp [packByte, zext8, h8, h4]
    · have hn : n.getLsbD i = false := BitVec.getLsbD_of_ge n i (by omega)
      simp [packByte, zext8, h8, h4, hn]
  · have hop : op.getLsbD (i - 4) = false := BitVec.getLsbD_of_ge op (i - 4) (by omega)
    have hp : (packByte op n).getLsbD i = false := BitVec.getLsbD_of_ge _ i (by omega)
    simp [hp, hop, show ¬ i < 4 by omega]

@[simp] theorem low4_packByte (op n : Nibble) : low4 (packByte op n) = n := by
  ext i hi
  rw [← BitVec.getLsbD_eq_getElem, ← BitVec.getLsbD_eq_getElem]
  simp [low4, getLsbD_packByte, hi]

@[simp] theorem high4_packByte (op n : Nibble) : high4 (packByte op n) = op := by
  ext i hi
  rw [← BitVec.getLsbD_eq_getElem, ← BitVec.getLsbD_eq_getElem]
  simp [high4, getLsbD_packByte, hi]

/-- A byte is its halves packed. -/
@[simp] theorem packByte_halves (v : Byte) : packByte (high4 v) (low4 v) = v := by
  ext i hi
  rw [← BitVec.getLsbD_eq_getElem, ← BitVec.getLsbD_eq_getElem, getLsbD_packByte]
  by_cases h4 : i < 4
  · simp [low4, h4]
  · simp [high4, h4, show i - 4 < 4 by omega, show 4 + (i - 4) = i by omega]

@[simp] theorem opcodeOf_opcodeBits (o : Opcode) : opcodeOf (opcodeBits o) = o := by
  cases o <;> rfl

@[simp] theorem opcodeBits_opcodeOf (op : Nibble) : opcodeBits (opcodeOf op) = op := by
  revert op; decide

@[simp] theorem opcode_ofOpcode (o : Opcode) (n : Nibble) : (Instr.ofOpcode o n).opcode = o := by
  cases o <;> rfl

@[simp] theorem operand_ofOpcode (o : Opcode) (n : Nibble) : (Instr.ofOpcode o n).operand = n := by
  cases o <;> rfl

/-- An instruction is its opcode and its operand. -/
@[simp] theorem ofOpcode_opcode_operand (i : Instr) : Instr.ofOpcode i.opcode i.operand = i := by
  cases i <;> rfl

/-- Encoding what a byte decodes to gives the byte back. -/
@[simp] theorem encodeByte_decodeByte (b : Byte) : encodeByte (decodeByte b) = b := by
  simp [decodeByte, encodeByte, opcodeField, operandField]

/-- The byte of an instruction has the instruction's opcode in its opcode field. -/
@[simp] theorem opcodeOf_encodeByte (i : Instr) : opcodeOf (opcodeField (encodeByte i)) = i.opcode := by
  simp [encodeByte, opcodeField]

/-- The byte of an instruction has the instruction's operand in its operand field. -/
@[simp] theorem operandField_encodeByte (i : Instr) : operandField (encodeByte i) = i.operand := by
  simp [encodeByte, operandField]

end Sys2Proof
end

