-- ==== Sys2Proof/Laws/Ops.lean ====
section
/-! SUPPORT. What the shared operations of Machine/Ops.lean leave in the state, each said once. -/

namespace Sys2Proof.Machine.State

variable (s : State)

/-- All a memory write does. -/
theorem writeMem_eq (a : Nibble) (v : Byte) : s.writeMem a v = { s with mem := Memory.write s.mem a v } := rfl

/-- All the operation `reset` does: the machine as created, with the memory it had. -/
theorem doReset_eq : s.doReset = { reset with mem := s.mem } := rfl

/-- All a load does: the machine as created, with the image in memory. -/
theorem load_eq (img : Image) : s.load img = { reset with mem := Memory.ofImage img } := rfl

@[simp] theorem readMem_eq (a : Nibble) : s.readMem a = Memory.read s.mem a := rfl

@[simp] theorem doReset_mem : s.doReset.mem = s.mem := rfl

@[simp] theorem doReset_halted : s.doReset.halted = false := rfl

@[simp] theorem load_mem (img : Image) : (s.load img).mem = Memory.ofImage img := rfl

@[simp] theorem load_halted (img : Image) : (s.load img).halted = false := rfl

end Sys2Proof.Machine.State
end

