-- ==== Sys2Proof/Laws/Pulse.lean ====
section
/-! SUPPORT. The pulse engine: each control line as one update of the state, and from these one equation that says all a
micro-step does under any control word. -/

namespace Sys2Proof.Machine.State

variable (s : State) (c : Bool)

theorem onLine_latch (su : Bool) : s.onLine c (·.latchFlags su) =
    { s with zf := if c then zeroFlag (alu s.a s.b su) else s.zf
             cf := if c then carryFlag (alu s.a s.b su) s.a else s.cf } := by cases c <;> rfl

theorem onLine_programCounterOut : s.onLine c programCounterOut =
    { s with bus := if c then zext8 s.pc else s.bus } := by cases c <;> rfl

theorem onLine_aluOut (su : Bool) : s.onLine c (aluOut su) =
    { s with bus := if c then alu s.a s.b su else s.bus } := by cases c <;> rfl

theorem onLine_accumulatorOut : s.onLine c accumulatorOut =
    { s with bus := if c then s.a else s.bus } := by cases c <;> rfl

theorem onLine_instructionRegisterOut : s.onLine c instructionRegisterOut =
    { s with bus := if c then zext8 (operandField s.ir) else s.bus } := by cases c <;> rfl

theorem onLine_memoryOut : s.onLine c memoryOut =
    { s with bus := if c then Memory.read s.mem s.mar else s.bus } := by cases c <;> rfl

theorem onLine_jump : s.onLine c jump =
    { s with pc := if c then low4 s.bus else s.pc } := by cases c <;> rfl

theorem onLine_programCounterIncrement : s.onLine c programCounterIncrement =
    { s with pc := if c then s.pc + 1 else s.pc } := by cases c <;> rfl

theorem onLine_outputLatchIn : s.onLine c outputLatchIn =
    { s with out := if c then s.bus else s.out } := by cases c <;> rfl

theorem onLine_registerBIn : s.onLine c registerBIn =
    { s with b := if c then s.bus else s.b } := by cases c <;> rfl

theorem onLine_accumulatorIn : s.onLine c accumulatorIn =
    { s with a := if c then s.bus else s.a } := by cases c <;> rfl

theorem onLine_instructionRegisterIn : s.onLine c instructionRegisterIn =
    { s with ir := if c then s.bus else s.ir } := by cases c <;> rfl

theorem onLine_memoryIn : s.onLine c memoryIn =
    { s with mem := if c then Memory.write s.mem s.mar s.bus else s.mem } := by cases c <;> rfl

theorem onLine_memoryAddressIn : s.onLine c memoryAddressIn =
    { s with mar := if c then low4 s.bus else s.mar } := by cases c <;> rfl

theorem onLine_halt : s.onLine c halt =
    { s with halted := if c then true else s.halted } := by cases c <;> rfl

/-- The bus after the source phase: the last asserted source in the fixed order, 0 if none is. -/
def busOf (s : State) (cw : ControlWord) : Byte :=
  if cw.ro then Memory.read s.mem s.mar
  else if cw.io then zext8 (operandField s.ir)
  else if cw.ao then s.a
  else if cw.eo then alu s.a s.b cw.su
  else if cw.co then zext8 s.pc
  else 0

/-- All a micro-step does, under any control word. -/
theorem applyWord_eq (cw : ControlWord) : s.applyWord cw =
    { a := if cw.ai then s.busOf cw else s.a
      b := if cw.bi then s.busOf cw else s.b
      out := if cw.oi then s.busOf cw else s.out
      pc := if cw.ce then (if cw.j then low4 (s.busOf cw) else s.pc) + 1
            else if cw.j then low4 (s.busOf cw) else s.pc
      ir := if cw.ii then s.busOf cw else s.ir
      mar := if cw.mi then low4 (s.busOf cw) else s.mar
      zf := if cw.fi then zeroFlag (alu s.a s.b cw.su) else s.zf
      cf := if cw.fi then carryFlag (alu s.a s.b cw.su) s.a else s.cf
      mem := if cw.ri then Memory.write s.mem s.mar (s.busOf cw) else s.mem
      bus := s.busOf cw
      step := s.step + 1
      halted := if cw.hlt then true else s.halted } := by
  simp only [applyWord, latchPhase, sourcePhase, sinkPhase, onLine_latch, onLine_programCounterOut, onLine_aluOut,
    onLine_accumulatorOut, onLine_instructionRegisterOut, onLine_memoryOut, onLine_jump,
    onLine_programCounterIncrement, onLine_outputLatchIn, onLine_registerBIn, onLine_accumulatorIn,
    onLine_instructionRegisterIn, onLine_memoryIn, onLine_memoryAddressIn, onLine_halt]
  rfl

theorem pulse_of_halted {s : State} (h : s.halted = true) : s.pulse = s := by simp [pulse, h]

theorem pulse_of_running {s : State} (h : s.halted = false) : s.pulse = s.applyWord s.currentControlWord := by
  simp [pulse, h]

/-- Micro-step 0 of every instruction (R153). -/
theorem pulse_step0 {s : State} (h : s.halted = false) (hk : s.step = 0) : s.pulse = s.applyWord fetch0 := by
  simp [pulse_of_running h, currentControlWord, slotOf, hk, ucode]

/-- Micro-step 1 of every instruction (R154). -/
theorem pulse_step1 {s : State} (h : s.halted = false) (hk : s.step = 1) : s.pulse = s.applyWord fetch1 := by
  simp [pulse_of_running h, currentControlWord, slotOf, hk, ucode]

/-- Micro-step 2 of the instruction in `IR`. -/
theorem pulse_step2 {s : State} (h : s.halted = false) (hk : s.step = 2) :
    s.pulse = s.applyWord (execWords s.zf s.cf (opcodeOf (opcodeField s.ir))).slot2 := by
  simp [pulse_of_running h, currentControlWord, slotOf, hk, ucode]

/-- Micro-step 3 of the instruction in `IR`. -/
theorem pulse_step3 {s : State} (h : s.halted = false) (hk : s.step = 3) :
    s.pulse = s.applyWord (execWords s.zf s.cf (opcodeOf (opcodeField s.ir))).slot3 := by
  simp [pulse_of_running h, currentControlWord, slotOf, hk, ucode]

/-- Micro-step 4 of the instruction in `IR`. -/
theorem pulse_step4 {s : State} (h : s.halted = false) (hk : s.step = 4) :
    s.pulse = s.applyWord (execWords s.zf s.cf (opcodeOf (opcodeField s.ir))).slot4 := by
  simp [pulse_of_running h, currentControlWord, slotOf, hk, ucode]

@[simp] theorem pulses_zero : s.pulses 0 = s := rfl

theorem pulses_succ (k : Nat) : s.pulses (k + 1) = s.pulse.pulses k := rfl

/-- Pulses in two runs. -/
theorem pulses_add (j k : Nat) : s.pulses (j + k) = (s.pulses j).pulses k := by
  induction j generalizing s with
  | zero => rw [Nat.zero_add, pulses_zero]
  | succ j ih => rw [Nat.succ_add, pulses_succ, ih, pulses_succ]

theorem fetch_of_halted {s : State} (h : s.halted = true) : s.fetch = s := by
  simp [fetch, pulses, pulse_of_halted h]

/-- All a fetch does (R153, R154, R164). -/
theorem fetch_eq {s : State} (h : s.halted = false) (hk : s.step = 0) : s.fetch =
    { s with mar := s.pc, ir := Memory.read s.mem s.pc, bus := Memory.read s.mem s.pc, pc := s.pc + 1, step := 2 } := by
  simp only [fetch, pulses]
  rw [pulse_step0 h hk, applyWord_eq, pulse_step1 (by simp [fetch0, h]) (by simp [hk]), applyWord_eq]
  simp [fetch0, fetch1, busOf, hk]

theorem execute_of_halted {s : State} (i : Instr) (h : s.halted = true) : s.execute i = s := by simp [execute, h]

theorem execute_of_running {s : State} (i : Instr) (h : s.halted = false) :
    s.execute i = ((s.setIr (encodeByte i)).setStep 2).pulses 3 := by simp [execute, h]

/-- In the state a fetch leaves, the rest of an instruction is the next three pulses. -/
theorem execute_decoded {s : State} (h : s.halted = false) (hk : s.step = 2) :
    s.execute (decodeByte s.ir) = s.pulses 3 := by
  have placed : (s.setIr (encodeByte (decodeByte s.ir))).setStep 2 = s := by
    rw [encodeByte_decodeByte, ← hk]
    rfl
  rw [execute_of_running _ h, placed]

end Sys2Proof.Machine.State

namespace Sys2Proof.Machine

/-- A run of the machine whose step is the pulse is a number of pulses. -/
theorem pulseCore_run (k : Nat) (s : State) : pulseCore.run k s = .next (s.pulses k) := by
  induction k generalizing s with
  | zero => rfl
  | succ k ih => exact ih s.pulse

end Sys2Proof.Machine
end

