-- ==== Sys2Proof/Laws/Exec.lean ====
section
/-! SUPPORT. The three words of an instruction's row, each meaning as one update of the state computed from them (the
instruction-level rules of files 43 to 45), and the cases of a step. -/

namespace Sys2Proof.Machine

open State

/-- Every meaning is the rest of its instruction. -/
theorem exec_eq (i : Instr) (s : State) : exec i s = .next (s.execute i) := by cases i <;> rfl

/-- A halted machine executes nothing (R131). -/
theorem exec_of_halted (i : Instr) {s : State} (h : s.halted = true) : exec i s = .next s := by
  rw [exec_eq, execute_of_halted i h]

/-- What a later word of a row depends on is not touched by an earlier one: slots 2 and 3 latch no flag and load no `IR`,
and slot 3 does not halt (R104). -/
theorem execWords_quiet (zf cf : Bool) (o : Opcode) :
    let w := execWords zf cf o
    w.slot2.fi = false ∧ w.slot2.ii = false ∧ w.slot3.fi = false ∧ w.slot3.ii = false ∧ w.slot3.hlt = false := by
  cases o <;> cases zf <;> cases cf <;> decide

/-- All the rest of an instruction does: its words of slots 2, 3 and 4 in turn, slot 2 alone if it halts. -/
theorem execute_eq_words (i : Instr) {s : State} (h : s.halted = false) :
    s.execute i =
      let w := execWords s.zf s.cf i.opcode
      let u := ((s.setIr (encodeByte i)).setStep 2).applyWord w.slot2
      if w.slot2.hlt then u else (u.applyWord w.slot3).applyWord w.slot4 := by
  obtain ⟨f2, i2, f3, i3, h3⟩ := execWords_quiet s.zf s.cf i.opcode
  simp only [execute_of_running i h, pulses]
  rw [pulse_step2 (s := (s.setIr (encodeByte i)).setStep 2) h rfl]
  simp only [setStep_zf, setIr_zf, setStep_cf, setIr_cf, setStep_ir, setIr_ir, opcodeOf_encodeByte]
  generalize hw : execWords s.zf s.cf i.opcode = w at *
  generalize hu : ((s.setIr (encodeByte i)).setStep 2).applyWord w.slot2 = u
  have uz : u.zf = s.zf := by rw [← hu, applyWord_eq]; simp [f2]
  have uc : u.cf = s.cf := by rw [← hu, applyWord_eq]; simp [f2]
  have ui : u.ir = encodeByte i := by rw [← hu, applyWord_eq]; simp [i2]
  have us : u.step = 3 := by rw [← hu, applyWord_eq]; rfl
  have uh : u.halted = w.slot2.hlt := by rw [← hu, applyWord_eq]; simp [h]
  cases hc : w.slot2.hlt
  · have hr : u.halted = false := uh.trans hc
    rw [pulse_step3 hr us, uz, uc, ui, opcodeOf_encodeByte, hw]
    rw [pulse_step4 (by rw [applyWord_eq]; simp [h3, hr]) (by rw [applyWord_eq]; simp [us])]
    simp [applyWord_eq, f3, i3, uz, uc, ui, hw]
  · have hr : u.halted = true := uh.trans hc
    simp [pulse_of_halted hr]

variable (n : Nibble) {s : State}

theorem exec_lda (h : s.halted = false) : exec (.lda n) s =
    .next { s with a := Memory.read s.mem n, mar := n, ir := encodeByte (.lda n), bus := 0, step := 0 } := by
  rw [exec_eq, execute_eq_words _ h]
  simp [Instr.opcode, Instr.operand, execWords, applyWord_eq, busOf]

theorem exec_sta (h : s.halted = false) : exec (.sta n) s =
    .next { s with mem := Memory.write s.mem n s.a, mar := n, ir := encodeByte (.sta n), bus := 0, step := 0 } := by
  rw [exec_eq, execute_eq_words _ h]
  simp [Instr.opcode, Instr.operand, execWords, applyWord_eq, busOf]

theorem exec_ldi (h : s.halted = false) : exec (.ldi n) s =
    .next { s with a := zext8 n, ir := encodeByte (.ldi n), bus := 0, step := 0 } := by
  rw [exec_eq, execute_eq_words _ h]
  simp [Instr.opcode, Instr.operand, execWords, applyWord_eq, busOf]

theorem exec_out (h : s.halted = false) : exec (.out n) s =
    .next { s with out := s.a, ir := encodeByte (.out n), bus := 0, step := 0 } := by
  rw [exec_eq, execute_eq_words _ h]
  simp [Instr.opcode, execWords, applyWord_eq, busOf]

theorem exec_add (h : s.halted = false) : exec (.add n) s =
    .next { s with
      a := alu s.a (Memory.read s.mem n) false, b := Memory.read s.mem n, mar := n
      zf := zeroFlag (alu s.a (Memory.read s.mem n) false)
      cf := carryFlag (alu s.a (Memory.read s.mem n) false) s.a
      ir := encodeByte (.add n), bus := alu s.a (Memory.read s.mem n) false, step := 0 } := by
  rw [exec_eq, execute_eq_words _ h]
  simp [Instr.opcode, Instr.operand, execWords, applyWord_eq, busOf]

theorem exec_sub (h : s.halted = false) : exec (.sub n) s =
    .next { s with
      a := alu s.a (Memory.read s.mem n) true, b := Memory.read s.mem n, mar := n
      zf := zeroFlag (alu s.a (Memory.read s.mem n) true)
      cf := carryFlag (alu s.a (Memory.read s.mem n) true) s.a
      ir := encodeByte (.sub n), bus := alu s.a (Memory.read s.mem n) true, step := 0 } := by
  rw [exec_eq, execute_eq_words _ h]
  simp [Instr.opcode, Instr.operand, execWords, applyWord_eq, busOf]

theorem exec_nop (h : s.halted = false) : exec (.nop n) s =
    .next { s with ir := encodeByte (.nop n), bus := 0, step := 0 } := by
  rw [exec_eq, execute_eq_words _ h]
  simp [Instr.opcode, execWords, applyWord_eq, busOf]

theorem exec_jmp (h : s.halted = false) : exec (.jmp n) s =
    .next { s with pc := n, ir := encodeByte (.jmp n), bus := 0, step := 0 } := by
  rw [exec_eq, execute_eq_words _ h]
  simp [Instr.opcode, Instr.operand, execWords, applyWord_eq, busOf, jumpWords]

theorem exec_jc (h : s.halted = false) : exec (.jc n) s =
    .next { s with pc := if s.cf then n else s.pc, ir := encodeByte (.jc n), bus := 0, step := 0 } := by
  rw [exec_eq, execute_eq_words _ h]
  cases hf : s.cf <;> simp [Instr.opcode, Instr.operand, execWords, jumpWords, applyWord_eq, busOf, hf]

theorem exec_jz (h : s.halted = false) : exec (.jz n) s =
    .next { s with pc := if s.zf then n else s.pc, ir := encodeByte (.jz n), bus := 0, step := 0 } := by
  rw [exec_eq, execute_eq_words _ h]
  cases hf : s.zf <;> simp [Instr.opcode, Instr.operand, execWords, jumpWords, applyWord_eq, busOf, hf]

theorem exec_hlt (h : s.halted = false) : exec (.hlt n) s =
    .next { s with halted := true, ir := encodeByte (.hlt n), bus := 0, step := 3 } := by
  rw [exec_eq, execute_eq_words _ h]
  simp [Instr.opcode, execWords, applyWord_eq, busOf]

theorem exec_reserved9 (h : s.halted = false) : exec (.reserved9 n) s =
    .next { s with ir := encodeByte (.reserved9 n), bus := 0, step := 0 } := by
  rw [exec_eq, execute_eq_words _ h]
  simp [Instr.opcode, execWords, applyWord_eq, busOf, ucodeReserved]

theorem exec_reservedA (h : s.halted = false) : exec (.reservedA n) s =
    .next { s with ir := encodeByte (.reservedA n), bus := 0, step := 0 } := by
  rw [exec_eq, execute_eq_words _ h]
  simp [Instr.opcode, execWords, applyWord_eq, busOf, ucodeReserved]

theorem exec_reservedB (h : s.halted = false) : exec (.reservedB n) s =
    .next { s with ir := encodeByte (.reservedB n), bus := 0, step := 0 } := by
  rw [exec_eq, execute_eq_words _ h]
  simp [Instr.opcode, execWords, applyWord_eq, busOf, ucodeReserved]

theorem exec_reservedC (h : s.halted = false) : exec (.reservedC n) s =
    .next { s with ir := encodeByte (.reservedC n), bus := 0, step := 0 } := by
  rw [exec_eq, execute_eq_words _ h]
  simp [Instr.opcode, execWords, applyWord_eq, busOf, ucodeReserved]

theorem exec_reservedD (h : s.halted = false) : exec (.reservedD n) s =
    .next { s with ir := encodeByte (.reservedD n), bus := 0, step := 0 } := by
  rw [exec_eq, execute_eq_words _ h]
  simp [Instr.opcode, execWords, applyWord_eq, busOf, ucodeReserved]

/-- The three cases of a step. -/
theorem step_cases (s : State) : step s =
    if s.halted then .next s
    else if s.step = 0 then exec (decodeByte s.fetch.ir) s.fetch
    else .next (s.pulses (5 - s.step.val)) := rfl

/-- A step at a boundary runs the instruction at the program counter. -/
theorem step_of_ready {s : State} (h : s.Ready) : step s = exec s.current s.fetch := by
  rw [step_cases, fetch_eq h.1 h.2]
  simp [h.1, h.2, current]

end Sys2Proof.Machine
end

