-- ==== Sys2Proof/Laws/PerInstr.lean ====
section
/-! SUPPORT. Statements made per instruction. `TableRow`: the byte of an instruction lies in its row of the opcode map,
`(I & 0xF0) == match` (30_encoding.md R66). -/

namespace Sys2Proof.Laws.TableRow

/-- The `match` column of the opcode map (R66). -/
def matchOf : Opcode → Byte
  | .nop => 0x00
  | .lda => 0x10
  | .add => 0x20
  | .sub => 0x30
  | .sta => 0x40
  | .ldi => 0x50
  | .jmp => 0x60
  | .jc => 0x70
  | .jz => 0x80
  | .reserved9 => 0x90
  | .reservedA => 0xA0
  | .reservedB => 0xB0
  | .reservedC => 0xC0
  | .reservedD => 0xD0
  | .out => 0xE0
  | .hlt => 0xF0

/-- The byte of `i` is in its row. -/
def Statement (i : Instr) : Prop := encodeByte i &&& 0xF0 = matchOf i.opcode

theorem nop (n : Nibble) : Statement (.nop n) := by
  revert n; unfold Statement; decide

theorem lda (n : Nibble) : Statement (.lda n) := by
  revert n; unfold Statement; decide

theorem add (n : Nibble) : Statement (.add n) := by
  revert n; unfold Statement; decide

theorem sub (n : Nibble) : Statement (.sub n) := by
  revert n; unfold Statement; decide

theorem sta (n : Nibble) : Statement (.sta n) := by
  revert n; unfold Statement; decide

theorem ldi (n : Nibble) : Statement (.ldi n) := by
  revert n; unfold Statement; decide

theorem jmp (n : Nibble) : Statement (.jmp n) := by
  revert n; unfold Statement; decide

theorem jc (n : Nibble) : Statement (.jc n) := by
  revert n; unfold Statement; decide

theorem jz (n : Nibble) : Statement (.jz n) := by
  revert n; unfold Statement; decide

theorem reserved9 (n : Nibble) : Statement (.reserved9 n) := by
  revert n; unfold Statement; decide

theorem reservedA (n : Nibble) : Statement (.reservedA n) := by
  revert n; unfold Statement; decide

theorem reservedB (n : Nibble) : Statement (.reservedB n) := by
  revert n; unfold Statement; decide

theorem reservedC (n : Nibble) : Statement (.reservedC n) := by
  revert n; unfold Statement; decide

theorem reservedD (n : Nibble) : Statement (.reservedD n) := by
  revert n; unfold Statement; decide

theorem out (n : Nibble) : Statement (.out n) := by
  revert n; unfold Statement; decide

theorem hlt (n : Nibble) : Statement (.hlt n) := by
  revert n; unfold Statement; decide

end Sys2Proof.Laws.TableRow
end

