-- ==== Sys2Proof/Tests/Slice0.lean ====
section
/-! SUPPORT. Tests of the model: decoding words written out from 30_encoding.md R66, the checks of WellFormed.lean, the
vectors of 95_test_vectors.md (named in each comment), and a witness for the hypotheses of every statement
that has some. Expected values come from the spec. -/

namespace Sys2Proof.Tests

open Sys2Proof Sys2Proof.Machine

/-- What a next state satisfies; false of a fault or a refusal. -/
def nextHas (o : Host.Outcome State Fault Refusal) (p : State → Bool) : Bool :=
  match o with
  | .next t => p t
  | .fault _ => false
  | .refused _ => false

/-- The machine after a successful load of these bytes from address 0 on. -/
def start (bytes : List Byte) : State := State.reset.load bytes

/-- The memory `MEM[i] = 0x11 * i` of the pulse vectors. -/
def ramp : State :=
  start [0x00, 0x11, 0x22, 0x33, 0x44, 0x55, 0x66, 0x77, 0x88, 0x99, 0xAA, 0xBB, 0xCC, 0xDD, 0xEE, 0xFF]

/-! ### Decoding, bit by bit from R66 -/

theorem test_decode_nop : decodeTableWord 8 0b00001001 = some (.nop 9) := by decide
theorem test_decode_lda : decodeTableWord 8 0b00010011 = some (.lda 3) := by decide
theorem test_decode_add : decodeTableWord 8 0b00101111 = some (.add 15) := by decide
theorem test_decode_sub : decodeTableWord 8 0b00110001 = some (.sub 1) := by decide
theorem test_decode_sta : decodeTableWord 8 0b01001110 = some (.sta 14) := by decide
theorem test_decode_ldi : decodeTableWord 8 0b01010101 = some (.ldi 5) := by decide
theorem test_decode_jmp : decodeTableWord 8 0b01101000 = some (.jmp 8) := by decide
theorem test_decode_jc : decodeTableWord 8 0b01110100 = some (.jc 4) := by decide
theorem test_decode_jz : decodeTableWord 8 0b10001010 = some (.jz 10) := by decide
theorem test_decode_reserved9 : decodeTableWord 8 0b10011010 = some (.reserved9 10) := by decide
theorem test_decode_reservedA : decodeTableWord 8 0b10100001 = some (.reservedA 1) := by decide
theorem test_decode_reservedB : decodeTableWord 8 0b10110011 = some (.reservedB 3) := by decide
theorem test_decode_reservedC : decodeTableWord 8 0b11000000 = some (.reservedC 0) := by decide
theorem test_decode_reservedD : decodeTableWord 8 0b11011111 = some (.reservedD 15) := by decide
theorem test_decode_out : decodeTableWord 8 0b11100111 = some (.out 7) := by decide
theorem test_decode_hlt : decodeTableWord 8 0b11110000 = some (.hlt 0) := by decide
/-- No bytes decode to nothing, by name. -/
theorem test_decode_no_byte : (match decode [] with | .error e => e == .noByte | .ok _ => false) = true := by decide

/-! ### Well-formedness: an ill-formed term for each check -/

theorem test_image_of_15_refused : Image.wellFormed (List.replicate 15 0) = false := by decide
theorem test_image_of_17_refused : Image.wellFormed (List.replicate 17 0) = false := by decide
theorem test_image_of_16_accepted : Image.wellFormed (List.replicate 16 0) = true := by decide
theorem test_memory_unsorted_refused : Memory.wf [(3, 1), (2, 1)] = false := by decide
theorem test_memory_repeated_refused : Memory.wf [(3, 1), (3, 2)] = false := by decide
theorem test_memory_zero_entry_refused : Memory.wf [(3, 0)] = false := by decide
theorem test_memory_address_16_refused : Memory.wf [(16, 1)] = false := by decide
/-- Writing the value an unlisted address reads as removes the entry. -/
theorem test_write_zero_removes_the_entry : Memory.write [(3, 7), (15, 1)] 3 0 = [(15, 1)] := by decide

/-! ### One instruction by one step (95_test_vectors.md section 4) -/

/-- I1. -/
theorem test_step_lda : nextHas (step (start [0x1E, 0, 0, 0, 0, 0, 0, 0, 0, 0, 0, 0, 0, 0, 28, 14]))
    (fun t => t.a == 28 && t.pc == 1 && t.mar == 14 && t.ir == 0x1E && t.bus == 0 && t.step == 0) = true := by decide
/-- I3: a loaded zero sets no flag. -/
theorem test_step_lda_zero_keeps_flags : nextHas (step (((start [0x15]).setA 9).setFlags false true))
    (fun t => t.a == 0 && t.zf == false && t.cf == true && t.mar == 5) = true := by decide
/-- I5: STA over its own byte. -/
theorem test_step_sta_self : nextHas (step ((start [0x40]).setA 0xF0))
    (fun t => t.readMem 0 == 0xF0 && t.ir == 0x40 && t.pc == 1 && t.mar == 0) = true := by decide
/-- I8. -/
theorem test_step_ldi_zero : nextHas (step (((start [0x50]).setA 7).setFlags false true))
    (fun t => t.a == 0 && t.zf == false && t.cf == true && t.pc == 1) = true := by decide
/-- I11. -/
theorem test_step_out_ignores_operand : nextHas (step (((start [0xE7]).setA 200).setOut 1))
    (fun t => t.out == 200 && t.a == 200 && t.pc == 1) = true := by decide
/-- I12, the source's own example. -/
theorem test_step_add_wraps : nextHas (step ((start [0x2F, 0, 0, 0, 0, 0, 0, 0, 0, 0, 0, 0, 0, 0, 0, 10]).setA 250))
    (fun t => t.a == 4 && t.b == 10 && t.zf == false && t.cf == true && t.bus == 4 && t.mar == 15) = true := by decide
/-- I14: ADD of its own byte, sum exactly 256. -/
theorem test_step_add_self : nextHas (step ((start [0x20]).setA 0xE0))
    (fun t => t.a == 0 && t.b == 0x20 && t.zf == true && t.cf == true) = true := by decide
/-- I16: a borrow clears the carry. -/
theorem test_step_sub_borrow : nextHas
    (step (((start [0x3F, 0, 0, 0, 0, 0, 0, 0, 0, 0, 0, 0, 0, 0, 0, 5]).setA 3).setFlags false true))
    (fun t => t.a == 254 && t.b == 5 && t.zf == false && t.cf == false && t.bus == 254) = true := by decide
/-- I18: subtracting zero clears the carry. -/
theorem test_step_sub_zero : nextHas (step (((start [0x3F]).setA 5).setFlags false true))
    (fun t => t.a == 5 && t.b == 0 && t.zf == false && t.cf == false) = true := by decide
/-- I33: the program counter wraps. -/
theorem test_step_nop_wraps : nextHas (step ((start []).setPc 15))
    (fun t => t.pc == 0 && t.mar == 15 && t.ir == 0) = true := by decide
/-- I23: a jump at address 15 to itself. -/
theorem test_step_jmp_at_15 : nextHas (step ((start [0, 0, 0, 0, 0, 0, 0, 0, 0, 0, 0, 0, 0, 0, 0, 0x6F]).setPc 15))
    (fun t => t.pc == 15 && t.mar == 15 && t.ir == 0x6F && t.bus == 0) = true := by decide
/-- I24 and I25: JC consults the carry alone. -/
theorem test_step_jc_taken : nextHas (step ((start [0x75]).setFlags false true)) (fun t => t.pc == 5) = true := by decide
theorem test_step_jc_not_taken : nextHas (step ((start [0x75]).setFlags true false)) (fun t => t.pc == 1) = true := by
  decide
/-- I26 and I27: JZ consults zero alone. -/
theorem test_step_jz_taken : nextHas (step ((start [0x8A]).setFlags true false)) (fun t => t.pc == 10) = true := by decide
theorem test_step_jz_not_taken : nextHas (step ((start [0x8A]).setFlags false true)) (fun t => t.pc == 1) = true := by
  decide
/-- I28. -/
theorem test_step_hlt : nextHas (step ((start [0xF0]).setA 3))
    (fun t => t.halted && t.step == 3 && t.pc == 1 && t.mar == 0 && t.ir == 0xF0 && t.a == 3 && t.bus == 0) = true := by
  decide
/-- I31 and I32, decision D4. -/
theorem test_step_reserved9 : nextHas (step (((start [0x90]).setA 1).setFlags true false))
    (fun t => t.pc == 1 && t.ir == 0x90 && t.a == 1 && t.zf && !t.cf && !t.halted) = true := by decide
theorem test_step_reservedD : nextHas (step (((start [0xDF]).setA 1).setFlags false true))
    (fun t => t.pc == 1 && t.ir == 0xDF && t.a == 1 && !t.zf && t.cf && !t.halted) = true := by decide
/-- A table word placed by `withFetchWord` runs in the very next step, from reset and from a halted machine. -/
theorem test_fetch_word_runs : nextHas (step (State.reset.withFetchWord 8 0x55)) (fun t => t.a == 5) = true ∧
    nextHas (step (((start [0]).setHalted true).withFetchWord 8 0x55)) (fun t => t.a == 5) = true := by decide

/-! ### One pulse (95_test_vectors.md section 2) -/

/-- E3. -/
theorem test_pulse_fetch_wraps : (((ramp.setPc 15).setMar 15).setStep 1).pulse =
    { ramp with bus := 0xFF, ir := 0xFF, pc := 0, mar := 15, step := 2 } := by decide
/-- E18: a stale bus is cleared; E20: not by a halted machine. -/
theorem test_pulse_clears_the_bus : ((ramp.setBus 0x77).setStep 3).pulse = ramp.setStep 4 := by decide
theorem test_pulse_halted_keeps_the_bus : (((ramp.setBus 0x77).setStep 3).setHalted true).pulse =
    ((ramp.setBus 0x77).setStep 3).setHalted true := by decide
/-- X4: increment after jump. -/
theorem test_word_jump_then_increment :
    ((ramp.setIr 0x6F).setPc 3).applyWord { io := true, j := true, ce := true } =
      { ramp with ir := 0x6F, bus := 15, pc := 0, step := 1 } := by decide
/-- X7: memory-in with the old address. -/
theorem test_word_memory_in_old_address :
    ((ramp.setA 0x5C).setMar 2).applyWord { ao := true, ri := true, mi := true } =
      { ramp with a := 0x5C, bus := 0x5C, mem := Memory.write ramp.mem 2 0x5C, mar := 12, step := 1 } := by decide
/-- X17: all sixteen lines. -/
theorem test_word_all_lines :
    ((((((ramp.setA 0x12).setB 0x34).setPc 5).setMar 6).setIr 0x7A).setStep 2).applyWord (ControlWord.ofNumber 0xFFFF) =
      { ramp with a := 0x66, b := 0x66, out := 0x66, ir := 0x66, pc := 7, mar := 6, bus := 0x66, halted := true,
                  step := 3 } := by decide

/-- R247: the result of a run that stores 7 at address 15 and outputs it is the latch and memory. -/
theorem test_result_of_a_run : ((start [0x57, 0x4F, 0xE0, 0xF0]).pulses 18).result =
    { out := 7, mem := [0x57, 0x4F, 0xE0, 0xF0, 0, 0, 0, 0, 0, 0, 0, 0, 0, 0, 0, 7] } := by decide

/-! ### The microcode table (40_control_lines_microcode.md) -/

/-- R105: rows as numbers. -/
theorem test_row_of_add : (List.range 8).map (fun k => (ucode false false 2 (Fin.ofNat 8 k)).number) =
    [0x4004, 0x1408, 0x4800, 0x1020, 0x0281, 0, 0, 0] := by decide
theorem test_row_of_sta : (List.range 8).map (fun k => (ucode true true 4 (Fin.ofNat 8 k)).number) =
    [0x4004, 0x1408, 0x4800, 0x2100, 0, 0, 0, 0] := by decide
/-- R104 (b): the order of the sinks never decides anything. -/
theorem test_table_sink_order_is_idle : ∀ (zf cf : Bool) (o : Opcode) (cw : ControlWord),
    cw ∈ [fetch0, fetch1, (execWords zf cf o).slot2, (execWords zf cf o).slot3, (execWords zf cf o).slot4] →
    ((cw.ro && cw.ri) || (cw.ri && cw.mi) || (cw.j && cw.ce) || (cw.ii && cw.io)) = false := by
  intro zf cf o cw h
  cases zf <;> cases cf <;> cases o <;> revert cw <;> decide

/-- R104 (c), (d), (e): where `FI`, `SU` and `HLT` are asserted, and what beside them. -/
theorem test_table_latch_subtract_halt : ∀ (zf cf : Bool) (o : Opcode),
    (∀ cw, cw ∈ [fetch0, fetch1, (execWords zf cf o).slot2, (execWords zf cf o).slot3] →
      cw.fi = false ∧ cw.su = false ∧ (cw.hlt = true → o = .hlt ∧ cw = { hlt := true })) ∧
    ((execWords zf cf o).slot4.fi = true → (o = .add ∨ o = .sub) ∧ (execWords zf cf o).slot4.eo = true ∧
      (execWords zf cf o).slot4.ai = true) ∧
    ((execWords zf cf o).slot4.su = true → o = .sub) ∧ (execWords zf cf o).slot4.hlt = false := by
  intro zf cf o
  cases zf <;> cases cf <;> cases o <;> decide

/-! ### The loader (95_test_vectors.md section 5) -/

/-- L5. -/
theorem test_assemble_program_p1 : imageOf "lda 14\nadd 15\nout\nhlt\n\n\n\n\n\n\n\n\n\n\n28\n14".toList =
    some [0x1E, 0x2F, 0xE0, 0xF0, 0, 0, 0, 0, 0, 0, 0, 0, 0, 0, 0x1C, 0x0E] := by decide
/-- L14: spaces, a tab, carriage returns, mixed case. -/
theorem test_assemble_whitespace : imageOf "  lDa\t 3  \r\nhlt\r\n".toList =
    some (0x13 :: 0xF0 :: List.replicate 14 0) := by decide
/-- L6, L16, L7, L18. -/
theorem test_line_bytes : ["LDI 21", "007", "OUT 7", "JC 16", "HLT", "255", ""].map (fun l => lineByte l.toList) =
    [some 0x55, some 7, some 0xE7, some 0x70, some 0xF0, some 0xFF, some 0] := by decide
/-- L4, L9 to L12, L19 to L24, L34 to L36. -/
theorem test_lines_refused : ["FOO 1", "LDA", "LDA 3 4", "256", "NOP", "NOP 0", "5 5", "LDA x", "LDA -1", "LDA 256",
    "LDA 0x3", "LDA 3 ; load", "LDA,3", "LDA3"].all (fun l => (lineByte l.toList).isNone) = true := by decide
/-- L28 and L29: the sixteenth line counts, the seventeenth does not. -/
theorem test_sixteenth_line : (imageOf "0\n0\n0\n0\n0\n0\n0\n0\n0\n0\n0\n0\n0\n0\n0\n0\nFOO".toList).isSome = true ∧
    imageOf "0\n0\n0\n0\n0\n0\n0\n0\n0\n0\n0\n0\n0\n0\n0\nFOO".toList = none := by decide
/-- Z5: a successful assemble restarts a halted machine. -/
theorem test_assemble_restarts : ((start [0xF0]).setHalted true).assemble "HLT".toList = (true, start [0xF0]) := by
  decide

/-! ### Witnesses: the hypotheses of the statements can be met together -/

theorem witness_well_formed : (Instr.hlt 15).wellFormed = true := by decide
theorem witness_alu_alone_on_the_bus : ∃ cw : ControlWord, cw.eo = true ∧ cw.ao = false ∧ cw.io = false ∧ cw.ro = false :=
  ⟨{ eo := true }, by decide⟩
theorem witness_halted : ((start [0xF0]).setHalted true).halted = true := by decide
theorem witness_running : ramp.halted = false := by decide
theorem witness_no_source_all_sinks : ∃ cw : ControlWord, cw.co = false ∧ cw.eo = false ∧ cw.ao = false ∧ cw.io = false ∧
    cw.ro = false ∧ cw.oi = true ∧ cw.bi = true ∧ cw.ai = true ∧ cw.ii = true ∧ cw.ri = true ∧ cw.mi = true ∧
    cw.j = true ∧ cw.ce = false :=
  ⟨{ oi := true, bi := true, ai := true, ii := true, ri := true, mi := true, j := true }, by decide⟩
theorem witness_table_word_with_a_sink : ∃ cw : ControlWord, cw = ucode false true 7 2 ∧
    (cw.j || cw.oi || cw.bi || cw.ai || cw.ii || cw.ri || cw.mi) = true := ⟨_, rfl, by decide⟩
theorem witness_flag_latch_words : ∃ cw cw' : ControlWord, (cw.fi = true ∧ cw.ai = true ∧ cw.eo = true ∧ cw.ao = false ∧
    cw.io = false ∧ cw.ro = false) ∧ cw'.fi = false :=
  ⟨{ fi := true, ai := true, eo := true }, {}, by decide⟩
theorem witness_jump_and_increment_words : ∃ c0 c1 c2 c3 : ControlWord, (c0.j = false ∧ c0.ce = false) ∧
    (c1.j = false ∧ c1.ce = true) ∧ (c2.j = true ∧ c2.ce = false) ∧ (c3.j = true ∧ c3.ce = true) :=
  ⟨{}, { ce := true }, { j := true }, { j := true, ce := true }, by decide⟩
/-- A canonical memory and a store, at the old address and beside it. -/
theorem witness_memory_in : ramp.MemInv ∧ ∃ cw : ControlWord, cw.ri = true ∧ (15 : Nibble) = (ramp.setMar 15).mar := by
  refine ⟨by decide, { ri := true }, by decide⟩
theorem witness_ready_not_halting : ramp.Ready ∧ (ramp.pulses 5).halted = false := by decide
theorem witness_no_latch_no_alu_out : ∃ cw : ControlWord, cw.fi = false ∧ cw.eo = false := ⟨{ su := true }, by decide⟩
theorem witness_fetch_steps : ramp.halted = false ∧ ramp.step = 0 ∧ (ramp.setStep 1).halted = false ∧
    (ramp.setStep 1).step = 1 := by decide
theorem witness_transfers : ((start [0x1F]).Ready ∧ (start [0x1F]).current = .lda 15) ∧
    ((start [0x40]).Ready ∧ (start [0x40]).current = .sta 0) ∧ ((start [0x5F]).Ready ∧ (start [0x5F]).current = .ldi 15) ∧
    ((start [0xE0]).Ready ∧ (start [0xE0]).current = .out 0) := by decide
theorem witness_additions : ((start [0x2F]).Ready ∧ (start [0x2F]).current = (if false then .sub 15 else .add 15)) ∧
    ((start [0x30]).Ready ∧ (start [0x30]).current = (if true then .sub 0 else .add 0)) := by decide
theorem witness_jumps : ((start [0x0F]).Ready ∧ (start [0x0F]).current = .nop 15) ∧
    ((start [0x60]).Ready ∧ (start [0x60]).current = .jmp 0) ∧ ((start [0x7F]).Ready ∧ (start [0x7F]).current = .jc 15) ∧
    ((start [0x80]).Ready ∧ (start [0x80]).current = .jz 0) := by decide
theorem witness_halt : (start [0xFF]).Ready ∧ (start [0xFF]).current = .hlt 15 ∧
    (start [0xFF]).current.opcode = .hlt := by decide
/-- The first and the last reserved byte. -/
theorem witness_reserved : (start [0x90]).Ready ∧ 9 ≤ ((start [0x90]).readMem (start [0x90]).pc).toNat / 16 ∧
    ((start [0x90]).readMem (start [0x90]).pc).toNat / 16 ≤ 13 ∧
    9 ≤ ((start [0xDF]).readMem (start [0xDF]).pc).toNat / 16 ∧
    ((start [0xDF]).readMem (start [0xDF]).pc).toNat / 16 ≤ 13 := by decide
theorem witness_store_other_cell : ramp.halted = false ∧ (15 : Nibble) ≠ dataAddress 0 ∧ ramp.MemInv := by decide
theorem witness_taken_jump : ((start []).setFlags true false).halted = false ∧ (Instr.jz 15, true) ∈
    [(Instr.jmp 15, true), (Instr.jc 15, ((start []).setFlags true false).cf),
      (Instr.jz 15, ((start []).setFlags true false).zf)] := by decide
theorem witness_nop_like : ramp.halted = false ∧ Instr.reservedD 15 ∈
    [Instr.nop 15, .reserved9 15, .reservedA 15, .reservedB 15, .reservedC 15, .reservedD 15] := by decide
/-- One pair of operands per row of R173, at the edges of the row; no pair is in two rows of one instruction. -/
theorem witness_arithmetic_rows : (200 + 55 < 256 ∧ 200 + 55 ≠ 0) ∧ (200 + 56 = 256) ∧ (256 < 255 + 2) ∧
    (1 ≤ 254 ∧ 254 < 255) ∧ (0 < 1) := by decide
theorem witness_decodes_at_pc : ramp.Ready ∧
    (match decode (ramp.readMem ramp.pc :: []) with | .ok r => r == (.nop 0, []) | .error _ => false) = true := by decide
theorem witness_run_to_halt : (start [0x50, 0xF0]).Ready ∧
    nextHas (Sys2Proof.core.run 1 (start [0x50, 0xF0])) (fun t => !t.halted && t.current.opcode == .hlt) = true := by decide
theorem witness_boundary : ramp.AtBoundary := by decide
theorem witness_counter_ends : ramp.Ready ∧ 0 ≤ 5 ∧ (start [0xF0]).Ready ∧ 5 ≤ 5 := by decide
/-- The invariants hold of machines that are not fresh: a halted one, and one in micro-steps 1 and 2. -/
theorem witness_invariants : ((start [0xF0]).pulses 3).HaltInv ∧ ((start [0xF0]).pulses 3).halted = true ∧
    (ramp.pulses 1).FetchInv ∧ (ramp.pulses 1).step = 1 ∧ (ramp.pulses 2).FetchInv ∧ (ramp.pulses 2).step = 2 ∧
    ramp.MemInv := by decide
theorem witness_reachable : (State.reset.pulses 2).Reachable := ⟨[.pulse, .pulse], by decide⟩
theorem witness_step_answers : ∃ t, ramp.Ready ∧ step ramp = .next t := ⟨_, by decide, rfl⟩
/-- Every clause of the table of writers can be met: an instruction that changes the element. -/
theorem witness_writers : nextHas (step (start [0x5F])) (fun t => t.a != 0) = true ∧
    nextHas (step (start [0x20])) (fun t => t.b != 0 && t.mar == 0) = true ∧
    nextHas (step ((start [0xE0]).setA 1)) (fun t => t.out != 0) = true ∧
    nextHas (step (start [0x6F])) (fun t => t.pc != 1) = true ∧
    nextHas (step (start [0x1F])) (fun t => t.mar != 0) = true ∧
    nextHas (step ((start [0x4F]).setA 1)) (fun t => t.mem != (start [0x4F]).mem) = true ∧
    nextHas (step (start [0x2F])) (fun t => t.zf) = true := by decide
/-- Two LDI in a row: a run without ADD and SUB. -/
theorem witness_run_without_arithmetic : (start [0x51, 0x52]).AtBoundary ∧
    (start [0x51, 0x52]).current.opcode ≠ .add ∧ (start [0x51, 0x52]).current.opcode ≠ .sub ∧
    nextHas (Sys2Proof.core.run 1 (start [0x51, 0x52]))
      (fun t => t.current.opcode != .add && t.current.opcode != .sub) = true := by decide
theorem witness_idle_operations : ∀ op ∈ [Operation.pulse, .assemble "NOP".toList],
    op = .pulse ∨ ∃ text, op = .assemble text ∧ imageOf text = none := by
  intro op h
  rcases List.mem_pair.1 h with rfl | rfl
  · exact .inl rfl
  · exact .inr ⟨_, rfl, by decide⟩
theorem witness_ignored_operand : Opcode.hlt.operandRole = .ignored ∧ Opcode.reserved9.operandRole = .ignored ∧
    (ramp.setStep 2).step = 2 ∧ 3 ≤ 3 := by decide
/-- A STA over the next cell and a STA over another cell. -/
theorem witness_store_then_fetch : ((start [0x41]).Ready ∧ (start [0x41]).MemInv ∧ (start [0x41]).current = .sta 1 ∧
    (1 : Nibble) = (start [0x41]).pc + 1) ∧ (start [0x40]).current = .sta 0 ∧ (0 : Nibble) ≠ (start [0x40]).pc + 1 := by
  decide
theorem witness_image_of_loader_instructions : Image.wellFormed (List.replicate 16 0xE7) = true ∧
    opcodeOf (opcodeField 0xE7) ∈ loaderOpcodes ∧ opcodeOf (opcodeField 0x0F) ∉ loaderOpcodes ∧
    opcodeOf (opcodeField 0xDF) ∉ loaderOpcodes := by decide
theorem witness_failing_text : imageOf "FOO 1".toList = none ∧ "FOO 1".toList ∈ (splitLines "FOO 1".toList).take 16 ∧
    lineByte "FOO 1".toList = none ∧ 2 < (tokens "LDA 3 4".toList).length ∧
    tokens "LDA 256".toList = ["LDA".toList, "256".toList] ∧ byteLiteral? "256".toList = none ∧
    mnemonic? "FOO".toList = none ∧ tokens "LDA".toList = ["LDA".toList] ∧ byteLiteral? "LDA".toList = none ∧
    mnemonic? "LDA".toList ≠ some .out ∧ mnemonic? "LDA".toList ≠ some .hlt := by decide
theorem witness_assembling_empty_text : imageOf [] = some (List.replicate 16 0) ∧ (splitLines [])[0]? = none := by
  decide
theorem witness_assembling_text : imageOf "255".toList = some (0xFF :: List.replicate 15 0) := by decide
theorem witness_first_line : (splitLines "255".toList)[0]? = some "255".toList := by decide
theorem witness_sixteen_lines : (splitLines "\n\n\n\n\n\n\n\n\n\n\n\n\n\n\n\n".toList).length = 16 := by decide
/-- Fifteen lines and an empty sixteenth one, with a bad line after them. -/
theorem witness_empty_sixteenth_line : (List.replicate 15 ['0'] ++ [[]]).length = 16 ∧
    (∀ l ∈ List.replicate 15 ['0'] ++ [[]], ∀ c ∈ l, c.toNat ≠ 10) := by
  refine ⟨by decide, fun l hl c hc => ?_⟩
  rcases List.mem_append.1 hl with h | h
  · rw [List.eq_of_mem_replicate h, List.mem_singleton] at hc
    subst hc
    decide
  · rw [List.mem_singleton.1 h] at hc
    cases hc
theorem witness_same_sixteen_lines : (splitLines "0\n0\n0\n0\n0\n0\n0\n0\n0\n0\n0\n0\n0\n0\n0\n\nFOO".toList).take 16 =
    (splitLines "0\n0\n0\n0\n0\n0\n0\n0\n0\n0\n0\n0\n0\n0\n0\n\n".toList).take 16 := by decide
theorem witness_line_forms : (∀ c ∈ " ".toList ++ "\t".toList ++ "\r".toList, isSpace c = true) ∧ "\t".toList ≠ [] ∧
    byteLiteral? "255".toList = some 255 ∧ byteLiteral? "0".toList = some 0 ∧
    some ("oUt".toList.map foldCase) = Opcode.out.name ∧ some ("hlT".toList.map foldCase) = Opcode.hlt.name ∧
    Opcode.jc ∈ loaderOpcodes ∧ some ("jC".toList.map foldCase) = Opcode.jc.name :=
  ⟨List.all_eq_true.1 (by decide), by decide, by decide, by decide, by decide, by decide, by decide, by decide⟩
/-- A run that ends: OUT and HLT, halted at its eighth pulse. -/
theorem witness_ended_run : (start [0xE0, 0xF0]).EndsIn ((start [0xE0, 0xF0]).pulses 8) ∧
    ((start [0xE0, 0xF0]).pulses 8).Ended := ⟨⟨8, rfl, by decide, by decide⟩, by decide⟩

end Sys2Proof.Tests
end

section
/-! The instruction and the pulse (00_scope.md R6): a step of the host's interface as a number of pulses, and how `STEP`
moves under any number of pulses (42_pulse_engine.md R151). -/

namespace Sys2Proof.Machine.State

/-- Pulses leave a halted machine as it is (R131). -/
theorem pulses_of_halted {s : State} (h : s.halted = true) (k : Nat) : s.pulses k = s := by
  induction k with
  | zero => rfl
  | succ k ih => rw [pulses_succ, pulse_of_halted h, ih]

@[simp] theorem applyWord_step (s : State) (cw : ControlWord) : (s.applyWord cw).step = s.step + 1 := by
  rw [applyWord_eq]

/-- `STEP` counts the pulses of a machine that is still running after them, modulo 5 (R151). -/
theorem pulses_halted_or_step (s : State) (k : Nat) :
    (s.pulses k).halted = true ∨ (s.pulses k).step.val = (s.step.val + k) % 5 := by
  induction k generalizing s with
  | zero => exact .inr (Nat.mod_eq_of_lt s.step.isLt).symm
  | succ k ih =>
    cases h : s.halted with
    | true => exact .inl (by rw [pulses_of_halted h, h])
    | false =>
      have advance : s.pulse.step.val = (s.step.val + 1) % 5 := by
        rw [pulse_of_running h, applyWord_step, Fin.val_add]
        rfl
      refine (ih s.pulse).imp_right fun counted => ?_
      rw [pulses_succ, counted, advance]
      omega

theorem fetch_keeps_running {s : State} (h : s.Ready) : s.fetch.halted = false := by
  obtain ⟨running, boundary⟩ := h
  rw [fetch_eq running boundary, running]

theorem fetch_leaves_step_two {s : State} (h : s.Ready) : s.fetch.step = 2 := by
  obtain ⟨running, boundary⟩ := h
  rw [fetch_eq running boundary]

end Sys2Proof.Machine.State

namespace Sys2Proof.Machine

open State

/-- The rest of the instruction a fetch has put into `IR` is the three pulses after it (R164). -/
theorem exec_fetched {s : State} (h : s.Ready) : exec (decodeByte s.fetch.ir) s.fetch = .next (s.pulses 5) := by
  rw [exec_eq, execute_decoded (fetch_keeps_running h) (fetch_leaves_step_two h), fetch, ← pulses_add]

/-- A step is the pulses that bring `STEP` back to 0, or none in a halted machine. -/
theorem step_eq_pulses (s : State) : step s = .next (s.pulses (5 - s.step.val)) := by
  rw [step_cases]
  split
  next halted => rw [pulses_of_halted halted]
  next running =>
    split
    next boundary => rw [exec_fetched ⟨eq_false_of_ne_true running, boundary⟩, boundary]; rfl
    next => rfl

/-- Settles O34: at a boundary the decoded instruction is the three pulses after the two of the fetch; elsewhere the
step is defined by its pulses, and a halted machine ignores them. -/
theorem stepIsThePulsesToTheBoundary : Obligations.StepIsThePulsesToTheBoundary :=
  step_eq_pulses

/-- Settles O42: the pulses of a step (O34) bring `STEP` to a multiple of 5 unless they halt the machine. -/
theorem stepEndsAtABoundaryOrHalted : Obligations.StepEndsAtABoundaryOrHalted := by
  intro s t answer
  rw [step_eq_pulses] at answer
  cases answer
  refine (pulses_halted_or_step s _).imp_right fun counted => Fin.ext ?_
  have bound : s.step.val < 5 := s.step.isLt
  have whole : (s.step.val + (5 - s.step.val)) % 5 = 0 := by omega
  exact counted.trans whole

end Sys2Proof.Machine
end

section
/-! What an instruction can write (10_state.md R11 to R13, R17 to R19, R23, R30), read off the control lines of its row, and
from it the persistence of the flags. -/

namespace Sys2Proof.Machine

open State

namespace State

/-! One element after a micro-step: the bus under its sink line, and kept without it (R141 to R150). -/

variable (s : State) (cw : ControlWord)

@[simp] theorem applyWord_a : (s.applyWord cw).a = if cw.ai then s.busOf cw else s.a := by rw [applyWord_eq]

@[simp] theorem applyWord_b : (s.applyWord cw).b = if cw.bi then s.busOf cw else s.b := by rw [applyWord_eq]

@[simp] theorem applyWord_out : (s.applyWord cw).out = if cw.oi then s.busOf cw else s.out := by rw [applyWord_eq]

@[simp] theorem applyWord_ir : (s.applyWord cw).ir = if cw.ii then s.busOf cw else s.ir := by rw [applyWord_eq]

@[simp] theorem applyWord_mar : (s.applyWord cw).mar = if cw.mi then low4 (s.busOf cw) else s.mar := by
  rw [applyWord_eq]

@[simp] theorem applyWord_mem : (s.applyWord cw).mem = if cw.ri then Memory.write s.mem s.mar (s.busOf cw) else s.mem := by
  rw [applyWord_eq]

@[simp] theorem applyWord_zf : (s.applyWord cw).zf = if cw.fi then zeroFlag (alu s.a s.b cw.su) else s.zf := by
  rw [applyWord_eq]

@[simp] theorem applyWord_cf : (s.applyWord cw).cf = if cw.fi then carryFlag (alu s.a s.b cw.su) s.a else s.cf := by
  rw [applyWord_eq]

@[simp] theorem applyWord_halted : (s.applyWord cw).halted = (cw.hlt || s.halted) := by
  rw [applyWord_eq]
  cases cw.hlt <;> rfl

@[simp] theorem applyWord_pc : (s.applyWord cw).pc =
    if cw.ce then (if cw.j then low4 (s.busOf cw) else s.pc) + 1
    else if cw.j then low4 (s.busOf cw) else s.pc := by
  rw [applyWord_eq]

end State

/-- The line is asserted in one of the three words of a row. -/
def ExecWords.asserts (w : ExecWords) (l : ControlLine) : Bool := w.slot2.has l || w.slot3.has l || w.slot4.has l

/-- Micro-steps 2 to 4 change an element only under its own line (R82, R134, R141): the state before and after a row of
words under which the instruction byte `ir` runs. -/
structure ChangedByLines (w : ExecWords) (ir : Byte) (s t : State) : Prop where
  a : t.a ≠ s.a → w.asserts .ai = true
  b : t.b ≠ s.b → w.asserts .bi = true
  out : t.out ≠ s.out → w.asserts .oi = true
  pc : t.pc ≠ s.pc → w.asserts .j = true ∨ w.asserts .ce = true
  ir : t.ir ≠ ir → w.asserts .ii = true
  mar : t.mar ≠ s.mar → w.asserts .mi = true
  mem : t.mem ≠ s.mem → w.asserts .ri = true
  flags : t.zf ≠ s.zf ∨ t.cf ≠ s.cf → w.asserts .fi = true
  halted : t.halted = true ↔ w.asserts .hlt = true

theorem execute_changedByLines (i : Instr) {s : State} (running : s.halted = false) :
    ChangedByLines (execWords s.zf s.cf i.opcode) (encodeByte i) s (s.execute i) := by
  rw [execute_eq_words i running]
  generalize execWords s.zf s.cf i.opcode = w
  cases stops : w.slot2.hlt <;> constructor
  case false.halted | true.halted => simp [ExecWords.asserts, ControlWord.has, stops, running, or_comm]
  all_goals
    contrapose!
    simp +contextual [ExecWords.asserts, ControlWord.has, stops]

/-- Which opcodes assert the line of an element in their rows (R100). -/
theorem execWords_lines (zf cf : Bool) (o : Opcode) :
    let w := execWords zf cf o
    (w.asserts .ai = true → o = .lda ∨ o = .ldi ∨ o = .add ∨ o = .sub) ∧
    (w.asserts .bi = true → o = .add ∨ o = .sub) ∧
    (w.asserts .oi = true → o = .out) ∧
    (w.asserts .j = true ∨ w.asserts .ce = true → o = .jmp ∨ o = .jc ∨ o = .jz) ∧
    w.asserts .ii = false ∧
    (w.asserts .mi = true → o = .lda ∨ o = .add ∨ o = .sub ∨ o = .sta) ∧
    (w.asserts .ri = true → o = .sta) ∧
    (w.asserts .fi = true → o = .add ∨ o = .sub) ∧
    (w.asserts .hlt = true ↔ o = .hlt) := by
  cases o <;> cases zf <;> cases cf <;> decide

/-- Settles O43: the fetch sets `IR`, `MAR` and the successor, and after it an element changes under its line only, which
stands in the rows of its writers only. -/
theorem onlyTheseInstructionsWriteTheseElements : Obligations.OnlyTheseInstructionsWriteTheseElements := by
  rintro s t o ready rfl answer
  have changed := execute_changedByLines s.current (fetch_keeps_running ready)
  rw [step_of_ready ready, exec_eq] at answer
  cases answer
  obtain ⟨ai, bi, oi, jump, ii, mi, ri, fi, hlt⟩ := execWords_lines s.fetch.zf s.fetch.cf s.current.opcode
  have ir : (s.fetch.execute s.current).ir = encodeByte s.current :=
    not_not.1 fun moved => by simp [changed.ir moved] at ii
  rw [current, encodeByte_decodeByte] at ir
  obtain ⟨running, boundary⟩ := ready
  have fetched := fetch_eq running boundary
  refine ⟨ir, fun h => ai (changed.a ?_), fun h => bi (changed.b ?_), fun h => oi (changed.out ?_),
    fun h => jump (changed.pc ?_), fun h => mi (changed.mar ?_), fun h => ri (changed.mem ?_),
    fun h => fi (changed.flags ?_), changed.halted.trans hlt⟩
  all_goals rw [fetched] at h ⊢; exact h

/-- A run goes on from the answer of its first step. -/
theorem run_succ_of_step {s t : State} (answer : step s = .next t) (k : Nat) :
    Sys2Proof.core.run (k + 1) s = Sys2Proof.core.run k t := by
  simp only [Host.Core.run, core, answer]

/-- A step of a machine at a boundary or halted keeps both flags if it executes no ADD and no SUB. -/
theorem step_keeps_flags {s t : State} (stop : s.halted = true ∨ s.AtBoundary) (answer : step s = .next t)
    (quiet : s.halted = false → s.current.opcode ≠ .add ∧ s.current.opcode ≠ .sub) : t.zf = s.zf ∧ t.cf = s.cf := by
  cases running : s.halted with
  | true =>
    rw [step_eq_pulses, pulses_of_halted running] at answer
    cases answer
    exact ⟨rfl, rfl⟩
  | false =>
    have boundary : s.AtBoundary := stop.resolve_left (by simp [running])
    obtain ⟨-, -, -, -, -, -, -, writers, -⟩ :=
      onlyTheseInstructionsWriteTheseElements s t _ ⟨running, boundary⟩ rfl answer
    obtain ⟨noAdd, noSub⟩ := quiet running
    by_contra changed
    exact (writers (not_and_or.1 changed)).elim noAdd noSub

/-- O45 with the start generalised to what a step ends in (O42), a boundary or the halted machine: the first step keeps the
flags, and the rest of the run executes no ADD and no SUB either. -/
theorem run_keeps_flags {k : Nat} {s t : State} (stop : s.halted = true ∨ s.AtBoundary)
    (quiet : ∀ (j : Nat) (u : State), j < k → Sys2Proof.core.run j s = .next u → u.halted = false →
      u.current.opcode ≠ .add ∧ u.current.opcode ≠ .sub)
    (answer : Sys2Proof.core.run k s = .next t) : t.zf = s.zf ∧ t.cf = s.cf := by
  induction k generalizing s with
  | zero =>
    cases answer
    exact ⟨rfl, rfl⟩
  | succ k ih =>
    have first := step_eq_pulses s
    generalize s.pulses (5 - s.step.val) = u at first
    obtain ⟨zFirst, cFirst⟩ := step_keeps_flags stop first (quiet 0 s k.succ_pos rfl)
    obtain ⟨zRest, cRest⟩ := ih (stepEndsAtABoundaryOrHalted s u first)
      (fun j v below reached => quiet (j + 1) v (Nat.succ_lt_succ below) ((run_succ_of_step first j).trans reached))
      ((run_succ_of_step first k).symm.trans answer)
    exact ⟨zRest.trans zFirst, cRest.trans cFirst⟩

/-- Settles O45, by induction on the number of steps. -/
theorem flagsPersistUntilArithmetic : Obligations.FlagsPersistUntilArithmetic :=
  fun _ _ _ boundary quiet answer => run_keeps_flags (.inr boundary) quiet answer

end Sys2Proof.Machine
end

section
/-! No program observes `B` or `OUT` (10_state.md R12, R13, R29): no word reads `OUT`, and the words that read `B` stand after
one that loads it. -/

namespace Sys2Proof.Machine

namespace State

/-- No control word reads the output latch. -/
theorem applyWord_setOut (s : State) (o : Byte) (cw : ControlWord) :
    (s.setOut o).applyWord cw = (s.applyWord cw).setOut (if cw.oi then s.busOf cw else o) := by
  rw [applyWord_eq, applyWord_eq]
  rfl

/-- So the latch is not observed by any number of pulses, from any state (R13). -/
theorem pulses_setOut (s : State) (o : Byte) (k : Nat) : ∃ o', (s.setOut o).pulses k = (s.pulses k).setOut o' := by
  induction k generalizing s o with
  | zero => exact ⟨o, rfl⟩
  | succ k ih =>
    cases h : s.halted with
    | true => exact ⟨o, by rw [pulses_of_halted h, pulses_of_halted (s := s.setOut o) h]⟩
    | false =>
      rw [pulses_succ, pulses_succ, pulse_of_running h, pulse_of_running (s := s.setOut o) h, applyWord_setOut]
      exact ih ..

/-- A word without `FI` and `EO` does not read `B`. -/
theorem applyWord_setB {cw : ControlWord} (noLatch : cw.fi = false) (noAlu : cw.eo = false) (s : State) (b : Byte) :
    (s.setB b).applyWord cw = (s.applyWord cw).setB (if cw.bi then s.busOf cw else b) := by
  have bus : (s.setB b).busOf cw = s.busOf cw := by simp [busOf, noAlu]
  rw [applyWord_eq, applyWord_eq, bus]
  simp [setB, noLatch]

/-- A word that loads `B` without reading it leaves no trace of what it held. -/
theorem applyWord_setB_of_load {cw : ControlWord} (noLatch : cw.fi = false) (noAlu : cw.eo = false)
    (load : cw.bi = true) (s : State) (b : Byte) : (s.setB b).applyWord cw = s.applyWord cw := by
  rw [applyWord_setB noLatch noAlu, applyWord_eq]
  simp [setB, load]

/-- In the rows of the table only slot 4 reads `B`, and then slot 3 has loaded it (R100). -/
theorem execWords_load_b_before_reading (zf cf : Bool) (o : Opcode) :
    let w := execWords zf cf o
    (w.slot2.fi = false ∧ w.slot2.eo = false) ∧ (w.slot3.fi = false ∧ w.slot3.eo = false) ∧
    (w.slot3.bi = true ∨ w.slot4.fi = false ∧ w.slot4.eo = false) := by
  cases o <;> cases zf <;> cases cf <;> decide

theorem execute_setB (i : Instr) {s : State} (running : s.halted = false) (b : Byte) :
    ∃ b', (s.setB b).execute i = (s.execute i).setB b' := by
  obtain ⟨⟨f2, e2⟩, ⟨f3, e3⟩, last⟩ := execWords_load_b_before_reading s.zf s.cf i.opcode
  rw [execute_eq_words i running, execute_eq_words i (s := s.setB b) running]
  have placed : ((s.setB b).setIr (encodeByte i)).setStep 2 = ((s.setIr (encodeByte i)).setStep 2).setB b := rfl
  simp only [setB_zf, setB_cf, placed, applyWord_setB f2 e2]
  split
  · exact ⟨_, rfl⟩
  · rcases last with load | ⟨f4, e4⟩
    · exact ⟨_, by rw [applyWord_setB_of_load f3 e3 load]; rfl⟩
    · exact ⟨_, by rw [applyWord_setB f3 e3, applyWord_setB f4 e4]⟩

/-- An instruction is its fetch and the rest of it (R164). -/
theorem pulses_five {s : State} (ready : s.Ready) : s.pulses 5 = s.fetch.execute (decodeByte s.fetch.ir) := by
  rw [execute_decoded (fetch_keeps_running ready) (fetch_leaves_step_two ready), fetch, ← pulses_add]

/-- One instruction does not observe `B`. -/
theorem pulses_five_setB {s : State} (ready : s.Ready) (b : Byte) :
    ∃ b', (s.setB b).pulses 5 = (s.pulses 5).setB b' := by
  have fetched : (s.setB b).fetch = s.fetch.setB b := by
    rw [fetch_eq ready.1 ready.2, fetch_eq (s := s.setB b) ready.1 ready.2]
    rfl
  rw [pulses_five ready, pulses_five (s := s.setB b) ready, fetched]
  exact execute_setB _ (fetch_keeps_running ready) b

theorem pulses_five_stop {s : State} (boundary : s.AtBoundary) :
    (s.pulses 5).halted = true ∨ (s.pulses 5).AtBoundary := by
  have answer := step_eq_pulses s
  rw [boundary] at answer
  exact stepEndsAtABoundaryOrHalted s _ answer

/-- No run of whole instructions observes `B` (R12, R29). -/
theorem pulses_setB {s : State} (stop : s.halted = true ∨ s.AtBoundary) (b : Byte) (k : Nat) :
    ∃ b', (s.setB b).pulses (5 * k) = (s.pulses (5 * k)).setB b' := by
  induction k generalizing s b with
  | zero => exact ⟨b, rfl⟩
  | succ k ih =>
    cases h : s.halted with
    | true => exact ⟨b, by rw [pulses_of_halted h, pulses_of_halted (s := s.setB b) h]⟩
    | false =>
      have boundary : s.AtBoundary := stop.resolve_left (by simp [h])
      obtain ⟨b₁, first⟩ := pulses_five_setB ⟨h, boundary⟩ b
      rw [Nat.mul_succ, Nat.add_comm, pulses_add, pulses_add, first]
      exact ih (pulses_five_stop boundary) b₁

end State

/-- Settles O47: `OUT` is not observed by pulses at all, and `B` not by whole instructions. -/
theorem operandRegisterAndLatchAreUnobservable : Obligations.OperandRegisterAndLatchAreUnobservable := by
  intro k s b o boundary
  obtain ⟨o', outKept⟩ := State.pulses_setOut (s.setB b) o (5 * k)
  obtain ⟨b', bKept⟩ := State.pulses_setB (.inr boundary) b k
  exact ⟨b', o', by rw [outKept, bKept]⟩

end Sys2Proof.Machine
end

section
/-! Creation, and the halted machine under the operations of the host (10_state.md R23, R27, 60_exceptions.md R248). -/

namespace Sys2Proof.Machine

open State

theorem assemble_of_failing (s : State) {text : Text} (fails : imageOf text = none) : s.assemble text = (false, s) := by
  simp [assemble, fails]

theorem assemble_of_image (s : State) {text : Text} {img : Image} (image : imageOf text = some img) :
    s.assemble text = (true, s.load img) := by
  simp [assemble, image]

/-- The operations that do nothing to a halted machine. -/
theorem performAll_of_halted {s : State} (halted : s.halted = true) (ops : List Operation)
    (idle : ∀ op ∈ ops, op = .pulse ∨ ∃ text, op = .assemble text ∧ imageOf text = none) : s.performAll ops = s := by
  induction ops with
  | nil => rfl
  | cons op rest ih =>
    have kept : s.perform op = s := by
      rcases idle op List.mem_cons_self with rfl | ⟨text, rfl, fails⟩
      · exact pulse_of_halted halted
      · simp only [perform, assemble_of_failing s fails]
    rw [performAll, kept, ih fun op' mem => idle op' (List.mem_cons_of_mem op mem)]

/-- Settles O46: pulses and failing assembles keep a halted state, and `reset` and a load clear `HALTED`. -/
theorem haltedUntilResetOrAssemble : Obligations.HaltedUntilResetOrAssemble := by
  refine fun s halted => ⟨performAll_of_halted halted, fun op => ?_⟩
  cases op with
  | pulse => simp [perform, pulse_of_halted halted, halted]
  | reset => simp [perform]
  | assemble text =>
    cases image : imageOf text with
    | none => simp [perform, assemble_of_failing s image, halted, image]
    | some img => simp [perform, assemble_of_image s image, image]

/-- Settles O38: each element by its value in `State.reset`, whose memory lists nothing; the two invariants speak of a halted
machine and of micro-steps 1 and 2, and the created one is running in micro-step 0. -/
theorem createdMachineIsZeroAndMeetsTheInvariants : Obligations.CreatedMachineIsZeroAndMeetsTheInvariants := by
  rintro s rfl
  have halt : State.reset.HaltInv := fun halted => absurd halted (by decide)
  have fetch : State.reset.FetchInv := ⟨fun step => absurd step (by decide), fun step => absurd step (by decide)⟩
  exact ⟨rfl, rfl, rfl, rfl, rfl, rfl, rfl, rfl, rfl, rfl, rfl, fun _ => rfl, rfl, halt, fetch⟩

end Sys2Proof.Machine
end

section
/-! Memory along a run (20_memory.md R47, R50, R54, R55): the canonical form is kept by all that happens to the machine, and a
store is in memory for the next fetch. Two inductions come first, over pulses and over the operations of the host. -/

namespace Sys2Proof.Machine

open State

namespace State

/-- What a pulse keeps, any number of pulses keeps. -/
theorem pulses_keep {P : State → Prop} (kept : ∀ s, P s → P s.pulse) {s : State} (start : P s) (k : Nat) :
    P (s.pulses k) := by
  induction k generalizing s with
  | zero => exact start
  | succ k ih => exact ih (kept s start)

/-- What every operation keeps, any sequence of operations keeps. -/
theorem performAll_keeps {P : State → Prop} (kept : ∀ s op, P s → P (s.perform op)) {s : State} (start : P s)
    (ops : List Operation) : P (s.performAll ops) := by
  induction ops generalizing s with
  | nil => exact start
  | cons op rest ih => exact ih (kept s op start)

/-- What holds at creation and is kept by every operation holds of every reachable state. -/
theorem reachable_induction {P : State → Prop} (created : P reset) (kept : ∀ s op, P s → P (s.perform op)) {s : State}
    (reached : s.Reachable) : P s := by
  obtain ⟨ops, rfl⟩ := reached
  exact performAll_keeps kept created ops

theorem applyWord_keeps_memInv {s : State} (canonical : s.MemInv) (cw : ControlWord) : (s.applyWord cw).MemInv := by
  rw [MemInv, applyWord_mem]
  split
  · exact Memory.wf_write canonical _ _
  · exact canonical

theorem pulse_keeps_memInv (s : State) (canonical : s.MemInv) : s.pulse.MemInv := by
  cases h : s.halted with
  | true => rwa [pulse_of_halted h]
  | false => rw [pulse_of_running h]; exact applyWord_keeps_memInv canonical _

/-- A failing assemble changes nothing and a successful one fills memory from an image. -/
theorem assemble_keeps_memInv {s : State} (canonical : s.MemInv) (text : Text) : (s.assemble text).2.MemInv := by
  cases image : imageOf text with
  | none => rwa [assemble_of_failing s image]
  | some img => rw [assemble_of_image s image]; exact Memory.wf_ofImage img

theorem perform_keeps_memInv (s : State) (op : Operation) (canonical : s.MemInv) : (s.perform op).MemInv := by
  cases op with
  | pulse => exact pulse_keeps_memInv s canonical
  | reset => exact canonical
  | assemble text => exact assemble_keeps_memInv canonical text

end State

theorem step_keeps_memInv {s t : State} (canonical : s.MemInv) (answer : step s = .next t) : t.MemInv := by
  rw [step_eq_pulses] at answer
  cases answer
  exact pulses_keep pulse_keeps_memInv canonical _

/-- Settles O39: the only writer of memory in a micro-step is `RI`, whose write keeps the form; a step is pulses, and what a
successful assemble loads has the form. -/
theorem canonicalMemoryIsKept : Obligations.CanonicalMemoryIsKept :=
  ⟨fun _ _ => step_keeps_memInv, perform_keeps_memInv,
    fun _ => reachable_induction (P := MemInv) rfl perform_keeps_memInv⟩

/-- The byte at the program counter is that of the instruction there. -/
theorem encodeByte_current (s : State) : encodeByte s.current = s.readMem s.pc := encodeByte_decodeByte _

/-- All a step over a STA does (R161): `IR` is the byte as it was fetched. -/
theorem step_sta {s : State} {n : Nibble} (ready : s.Ready) (store : s.current = .sta n) : step s =
    .next { s with
      mem := Memory.write s.mem n s.a, mar := n, pc := s.pc + 1, ir := s.readMem s.pc, bus := 0, step := 0 } := by
  rw [step_of_ready ready, store, exec_sta n (fetch_keeps_running ready), ← store, encodeByte_current,
    fetch_eq ready.1 ready.2]

/-- Settles O49: the instruction at the successor is read from the memory the store has written, at `n` the byte of `A` and
elsewhere what stood there. -/
theorem storeIsSeenByTheNextFetch : Obligations.StoreIsSeenByTheNextFetch := by
  intro s n ready canonical store
  refine ⟨_, step_sta ready store, rfl, rfl, Memory.read_write_same canonical n s.a, ?_, fun elsewhere => ?_⟩
  · rintro rfl
    exact congrArg decodeByte (Memory.read_write_same canonical _ s.a)
  · exact congrArg decodeByte (Memory.read_write_other s.mem s.a (Ne.symm elsewhere))

end Sys2Proof.Machine
end

section
/-! Bytes and instructions are the same thing (30_encoding.md R60 to R67): decoding and encoding undo each other. -/

namespace Sys2Proof

/-- The high half of a byte as a number (R61). -/
theorem toNat_high4 (v : Byte) : (high4 v).toNat = v.toNat / 16 := by
  have bound : v.toNat < 256 := v.isLt
  rw [high4, BitVec.extractLsb'_toNat, Nat.shiftRight_eq_div_pow]
  omega

/-- The low half of a byte as a number (R61). -/
theorem toNat_low4 (v : Byte) : (low4 v).toNat = v.toNat % 16 := BitVec.extractLsb'_toNat 0 4 v

theorem opcode_decodeByte (b : Byte) : (decodeByte b).opcode = opcodeOf (opcodeField b) := opcode_ofOpcode _ _

theorem operand_decodeByte (b : Byte) : (decodeByte b).operand = operandField b := operand_ofOpcode _ _

/-- Decoding the byte of an instruction gives the instruction back. -/
theorem decodeByte_encodeByte (i : Instr) : decodeByte (encodeByte i) = i := by
  rw [decodeByte, opcodeOf_encodeByte, operandField_encodeByte, ofOpcode_opcode_operand]

/-- No instruction is ill formed (R62). -/
theorem wellFormed_eq_true (i : Instr) : i.wellFormed = true := by cases i <;> rfl

/-- A byte is its own table word of 8 bits. -/
theorem wordByte_toNat (b : Byte) : wordByte 8 b.toNat = b := by
  rw [wordByte, Nat.mod_eq_of_lt b.isLt, BitVec.ofNat_toNat, BitVec.setWidth_eq]

/-- The instruction of a byte taken as a table word is the one it decodes to. -/
theorem decodeTableWord_toNat (b : Byte) : decodeTableWord 8 b.toNat = some (decodeByte b) := by
  rw [decodeTableWord, wordByte_toNat]
  rfl

/-- Settles O1: the opcode and the operand are read back from the two halves of the byte. -/
theorem decodeOfEncodeIsTheInstruction : Obligations.DecodeOfEncodeIsTheInstruction := by
  intro i rest _
  refine ⟨?_, by rw [decodeTableWord_toNat, decodeByte_encodeByte]⟩
  rw [encode, List.singleton_append, decode, decodeByte_encodeByte]

/-- Settles O2: the instruction is the one of the byte's two halves, and packing the halves gives the byte back. -/
theorem everyByteDecodesByItsHalves : Obligations.EveryByteDecodesByItsHalves := by
  intro b rest
  refine ⟨decodeByte b, rfl, wellFormed_eq_true _, by rw [encode, encodeByte_decodeByte], ?_, ?_⟩
  · rw [opcode_decodeByte, opcodeBits_opcodeOf, opcodeField, toNat_high4]
  · rw [operand_decodeByte, operandField, toNat_low4]

/-- Settles O3: each word is the byte of its instruction, which is read back (O1). -/
theorem wordsOfTheOpcodeMapDecode : Obligations.WordsOfTheOpcodeMapDecode :=
  have read (i : Instr) : decodeTableWord 8 (encodeByte i).toNat = some i :=
    (decodeOfEncodeIsTheInstruction i [] (wellFormed_eq_true i)).2
  ⟨read (.nop 9), read (.lda 3), read (.sub 15), read (.jz 4), read (.reserved9 10), read (.out 7), read (.hlt 0)⟩

end Sys2Proof
end

section
/-! The ignored operands (30_encoding.md R63, R65): no word of such a row reads or loads `IR`. -/

namespace Sys2Proof.Machine

open State

/-- The table under an opcode that ignores its operand: after the fetch, `IR` is neither put on the bus nor loaded. -/
theorem ucode_of_ignored {op : Nibble} (ignored : (opcodeOf op).operandRole = .ignored) {k : Fin Config.stepModulus}
    (fetched : 2 ≤ k) (zf cf : Bool) :
    (ucode zf cf op (slotOf k)).io = false ∧ (ucode zf cf op (slotOf k)).ii = false := by
  revert zf cf op k
  decide

namespace State

/-- A word without `IO` and `II` does not touch `IR`. -/
theorem applyWord_setIr {cw : ControlWord} (noOut : cw.io = false) (noIn : cw.ii = false) (s : State) (v : Byte) :
    (s.setIr v).applyWord cw = (s.applyWord cw).setIr v := by
  have bus : (s.setIr v).busOf cw = s.busOf cw := by simp [busOf, noOut]
  rw [applyWord_eq, applyWord_eq, bus]
  simp [setIr, noIn]

/-- After the fetch, a pulse of an opcode that ignores its operand does the same under every other operand. -/
theorem pulse_setIr {s : State} {v : Byte} (same : opcodeField v = opcodeField s.ir)
    (ignored : (opcodeOf (opcodeField s.ir)).operandRole = .ignored) (fetched : s.halted = true ∨ 2 ≤ s.step) :
    (s.setIr v).pulse = s.pulse.setIr v := by
  cases h : s.halted with
  | true => rw [pulse_of_halted h, pulse_of_halted (s := s.setIr v) h]
  | false =>
    have word : (s.setIr v).currentControlWord = s.currentControlWord := by
      simp [currentControlWord, same]
    obtain ⟨noOut, noIn⟩ := ucode_of_ignored ignored (fetched.resolve_left (by simp [h])) s.zf s.cf
    rw [pulse_of_running h, pulse_of_running (s := s.setIr v) h, word, currentControlWord, applyWord_setIr noOut noIn]

end State

/-- Settles O48, by induction on the number of pulses: before each of the three, the machine is halted or in one of the
micro-steps 2 to 4. -/
theorem ignoredOperandHasNoEffect : Obligations.IgnoredOperandHasNoEffect := by
  intro s o n n' k ignored start bound
  induction k generalizing n n' with
  | zero => rfl
  | succ k ih =>
    have ir := congrArg State.ir (ih n' n' (by omega))
    have step := pulses_halted_or_step (s.setIr (packByte (opcodeBits o) n')) k
    rw [pulses_add, pulses_add _ k, ih n n' (by omega)]
    generalize (s.setIr (packByte (opcodeBits o) n')).pulses k = t at *
    refine pulse_setIr (by simp [ir, opcodeField]) (by simpa [ir, opcodeField] using ignored)
      (step.imp_right fun counted => ?_)
    have counted : t.step.val = (2 + k) % 5 := by rw [counted, setIr_step, start]; rfl
    exact Fin.le_def.2 (show 2 ≤ t.step.val by omega)

end Sys2Proof.Machine
end

section
/-! The text of a program, read back (46_program_loader.md R202 to R215): lines, the tokens of a line, decimal bytes and
mnemonics; and from these the disassembly (30_encoding.md R72). -/

namespace Sys2Proof.Machine

/-- Text that is one token of one line: not empty, without whitespace and without a line feed. -/
def IsWord (t : Text) : Prop := t ≠ [] ∧ ∀ c ∈ t, isSpace c = false ∧ c.toNat ≠ 10

/-! ### Lines -/

theorem splitLines_append_lineFeed {line : Text} (oneLine : ∀ c ∈ line, c.toNat ≠ 10) (rest : Text) :
    splitLines (line ++ Char.ofNat 10 :: rest) = line :: splitLines rest := by
  induction line with
  | nil => rfl
  | cons c line ih =>
    obtain ⟨noFeed, others⟩ := List.forall_mem_cons.1 oneLine
    simp [splitLines, noFeed, ih others]

/-- The lines of a text made of lines, each ended by a line feed (R202). -/
theorem splitLines_flatMap {α : Type} {f : α → Text} {l : List α} (oneLine : ∀ x ∈ l, ∀ c ∈ f x, c.toNat ≠ 10) :
    splitLines (l.flatMap fun x => f x ++ [Char.ofNat 10]) = l.map f := by
  induction l with
  | nil => rfl
  | cons x l ih =>
    obtain ⟨first, others⟩ := List.forall_mem_cons.1 oneLine
    rw [List.flatMap_cons, List.append_assoc, List.singleton_append, splitLines_append_lineFeed first, ih others,
      List.map_cons]

theorem linesBytes_map {f : Byte → Text} {bytes : List Byte} (read : ∀ b ∈ bytes, lineByte (f b) = some b) :
    linesBytes (bytes.map f) = some bytes := by
  induction bytes with
  | nil => rfl
  | cons b bytes ih =>
    obtain ⟨first, others⟩ := List.forall_mem_cons.1 read
    rw [List.map_cons, linesBytes, first, ih others]

/-- A text with one line for each byte of an image has that image (R201). -/
theorem imageOf_flatMap {f : Byte → Text} {img : Image} (whole : img.wellFormed = true)
    (oneLine : ∀ b ∈ img, ∀ c ∈ f b, c.toNat ≠ 10) (read : ∀ b ∈ img, lineByte (f b) = some b) :
    imageOf (img.flatMap fun b => f b ++ [Char.ofNat 10]) = some img := by
  have size : img.length = 16 := eq_of_beq whole
  have all : (img.map f).take Config.maxLines = img.map f := List.take_of_length_le (by simp [size, Config.maxLines])
  simp [imageOf, splitLines_flatMap oneLine, all, linesBytes_map read, fillImage, size, Config.memSize]

/-! ### Tokens -/

theorem tokensFrom_append {w : Text} (solid : ∀ c ∈ w, isSpace c = false) (tok rest : Text) :
    tokensFrom tok (w ++ rest) = tokensFrom (tok ++ w) rest := by
  induction w generalizing tok with
  | nil => simp
  | cons c w ih =>
    obtain ⟨noSpace, others⟩ := List.forall_mem_cons.1 solid
    simp [tokensFrom, noSpace, ih others]

theorem tokens_word {w : Text} (word : IsWord w) : tokens w = [w] := by
  have read := tokensFrom_append (fun c mem => (word.2 c mem).1) [] []
  simpa [tokens, tokensFrom, word.1] using read

theorem tokens_word_space {w : Text} (word : IsWord w) (rest : Text) : tokens (w ++ ' ' :: rest) = w :: tokens rest := by
  have space : isSpace ' ' = true := rfl
  rw [tokens, tokensFrom_append fun c mem => (word.2 c mem).1]
  simp [tokens, tokensFrom, space, word.1]

theorem lineByte_word {w : Text} (word : IsWord w) : lineByte w = tokensByte [w] := by rw [lineByte, tokens_word word]

theorem lineByte_two_words {m t : Text} (first : IsWord m) (second : IsWord t) :
    lineByte (m ++ ' ' :: t) = tokensByte [m, t] := by
  rw [lineByte, tokens_word_space first, tokens_word second]

/-! ### Decimal bytes -/

theorem toNat_digitChar {d : Nat} (digit : d < 10) : (digitChar d).toNat = 48 + d := by
  have all : ∀ d : Fin 10, (digitChar d).toNat = 48 + d := by decide
  exact all ⟨d, digit⟩

theorem digitChar_not_blank {d : Nat} (digit : d < 10) :
    isSpace (digitChar d) = false ∧ (digitChar d).toNat ≠ 10 := by
  simp [isSpace, toNat_digitChar digit]
  omega

theorem decimalFrom_digitChar (acc : Nat) {d : Nat} (digit : d < 10) (rest : Text) :
    decimalFrom acc (digitChar d :: rest) = decimalFrom (acc * 10 + d) rest := by
  have value : digitValue? (digitChar d) = some d := by
    rw [digitValue?, toNat_digitChar digit, if_pos (by omega), Nat.add_sub_cancel_left]
  rw [decimalFrom, value]

theorem decimalFrom_digits {ds : List Nat} (digits : ∀ d ∈ ds, d < 10) (acc : Nat) :
    decimalFrom acc (ds.map digitChar) = some (ds.foldl (fun n d => n * 10 + d) acc) := by
  induction ds generalizing acc with
  | nil => rfl
  | cons d ds ih =>
    obtain ⟨first, others⟩ := List.forall_mem_cons.1 digits
    rw [List.map_cons, decimalFrom_digitChar acc first, ih others, List.foldl_cons]

/-- A byte in decimal is one, two or three digits that add up to its value (R72). -/
theorem byteDigits_eq_map (v : Byte) : ∃ ds : List Nat, byteDigits v = ds.map digitChar ∧ ds ≠ [] ∧
    (∀ d ∈ ds, d < 10) ∧ ds.foldl (fun n d => n * 10 + d) 0 = v.toNat := by
  have bound : v.toNat < 256 := v.isLt
  simp only [byteDigits]
  generalize v.toNat = n at *
  split
  next => exact ⟨[n], rfl, by simp, by simpa, by simp⟩
  next =>
    split
    next => exact ⟨[n / 10, n % 10], rfl, by simp, by simp; omega, by simp; omega⟩
    next => exact ⟨[n / 100, n / 10 % 10, n % 10], rfl, by simp, by simp; omega, by simp; omega⟩

theorem isWord_byteDigits (v : Byte) : IsWord (byteDigits v) := by
  obtain ⟨ds, text, nonempty, digits, -⟩ := byteDigits_eq_map v
  rw [text]
  exact ⟨by simpa, List.forall_mem_map.2 fun d mem => digitChar_not_blank (digits d mem)⟩

/-- A byte in decimal is a literal of that byte (R213). -/
theorem byteLiteral?_byteDigits (v : Byte) : byteLiteral? (byteDigits v) = some v := by
  obtain ⟨ds, text, nonempty, digits, value⟩ := byteDigits_eq_map v
  have bound : v.toNat ≤ 255 := Nat.le_of_lt_succ v.isLt
  have read : decimalFrom 0 (ds.map digitChar) = some v.toNat := by rw [decimalFrom_digits digits, value]
  simp [byteLiteral?, text, nonempty, read, bound]

/-! ### Mnemonics -/

theorem isWord_name {o : Opcode} {name : Text} (named : o.name = some name) : IsWord name := by
  cases o <;> cases named <;> simp [IsWord, isSpace]

/-- The names of the opcode table are the loader's mnemonics but for NOP (R70, R210). -/
theorem mnemonic?_name {o : Opcode} {name : Text} (named : o.name = some name) :
    mnemonic? name = if o ∈ loaderOpcodes then some o else none := by
  cases o <;> cases named <;> rfl

theorem byteLiteral?_name {o : Opcode} {name : Text} (named : o.name = some name) : byteLiteral? name = none := by
  cases o <;> cases named <;> decide

theorem exists_name_of_loader {o : Opcode} (loader : o ∈ loaderOpcodes) : ∃ name, o.name = some name := by
  refine Option.isSome_iff_exists.1 ?_
  revert o
  decide

/-- The mnemonics that ignore their operand are those that may stand alone (R207). -/
theorem standsAlone_of_ignored {o : Opcode} (loader : o ∈ loaderOpcodes) (ignored : o.operandRole = .ignored) :
    standsAlone o = true := by
  revert o
  decide

/-! ### Disassembly -/

theorem isWord_byteDirective : IsWord ".byte".toList := by simp [IsWord, isSpace]

/-- A byte with a named opcode disassembles to its name, alone or with its operand (R72). -/
theorem disassemble_of_name {b : Byte} {name : Text} (named : (opcodeOf (opcodeField b)).name = some name) :
    disassemble b = name ∧ (opcodeOf (opcodeField b)).operandRole = .ignored ∧ operandField b = 0 ∨
      disassemble b = name ++ ' ' :: byteDigits (zext8 (operandField b)) := by
  simp only [disassemble, named]
  split
  next ignored =>
    split
    next zero => exact .inl ⟨rfl, ignored, zero⟩
    next => exact .inr rfl
  all_goals exact .inr rfl

/-- A byte with a reserved opcode disassembles to a directive (R72). -/
theorem disassemble_of_reserved {b : Byte} (reserved : (opcodeOf (opcodeField b)).name = none) :
    disassemble b = ".byte".toList ++ ' ' :: byteDigits b := by
  simp only [disassemble, reserved]
  rfl

/-- The text of a byte is one line. -/
theorem disassemble_oneLine (b : Byte) : ∀ c ∈ disassemble b, c.toNat ≠ 10 := by
  have words {m t : Text} (first : IsWord m) (second : IsWord t) : ∀ c ∈ m ++ ' ' :: t, c.toNat ≠ 10 :=
    List.forall_mem_append.2
      ⟨fun c mem => (first.2 c mem).2, List.forall_mem_cons.2 ⟨by decide, fun c mem => (second.2 c mem).2⟩⟩
  cases named : (opcodeOf (opcodeField b)).name with
  | none =>
    rw [disassemble_of_reserved named]
    exact words isWord_byteDirective (isWord_byteDigits b)
  | some name =>
    rcases disassemble_of_name named with ⟨text, -, -⟩ | text <;> rw [text]
    · exact fun c mem => ((isWord_name named).2 c mem).2
    · exact words (isWord_name named) (isWord_byteDigits _)

/-- The text of an instruction of the loader is a line that defines its byte (R70, R72). -/
theorem lineByte_disassemble {b : Byte} (loader : opcodeOf (opcodeField b) ∈ loaderOpcodes) :
    lineByte (disassemble b) = some b := by
  obtain ⟨name, named⟩ := exists_name_of_loader loader
  have packed : packByte (opcodeField b) (operandField b) = b := packByte_halves b
  rcases disassemble_of_name named with ⟨text, ignored, zero⟩ | text <;> rw [text]
  · rw [zero] at packed
    simpa [lineByte_word (isWord_name named), tokensByte, byteLiteral?_name named, mnemonic?_name named, loader,
      standsAlone_of_ignored loader ignored] using packed
  · simp [lineByte_two_words (isWord_name named) (isWord_byteDigits _), tokensByte, mnemonic?_name named, loader,
      byteLiteral?_byteDigits, combine, packed]

/-- The text of a NOP or of a reserved opcode is a line the loader rejects (R70, R72). -/
theorem lineByte_disassemble_eq_none {b : Byte} (foreign : opcodeOf (opcodeField b) ∉ loaderOpcodes) :
    lineByte (disassemble b) = none := by
  cases named : (opcodeOf (opcodeField b)).name with
  | none =>
    rw [disassemble_of_reserved named, lineByte_two_words isWord_byteDirective (isWord_byteDigits b)]
    rfl
  | some name =>
    have unknown : mnemonic? name = none := by rw [mnemonic?_name named, if_neg foreign]
    rcases disassemble_of_name named with ⟨text, -, -⟩ | text <;> rw [text]
    · simp [lineByte_word (isWord_name named), tokensByte, byteLiteral?_name named, unknown]
    · simp [lineByte_two_words (isWord_name named) (isWord_byteDigits _), tokensByte, unknown]

/-- Settles O59: the disassembly of a byte is one line, which the loader reads back exactly if the opcode is one of its
ten. -/
theorem disassemblyReassembles : Obligations.DisassemblyReassembles :=
  ⟨fun _ whole loader =>
    imageOf_flatMap whole (fun b _ => disassemble_oneLine b) fun b mem => lineByte_disassemble (loader b mem),
    fun _ => lineByte_disassemble_eq_none⟩

end Sys2Proof.Machine
end

section
/-! Control words as sets of lines and as 16-bit numbers (40_control_lines_microcode.md R80, R81): a line is asserted
exactly if its bit of the number is set, and every bit is the bit of one line. -/

namespace Sys2Proof.Machine

namespace ControlLine

/-- A line stands in the list at the place that is its bit (decision D1). -/
theorem all_getElem?_bitPos (l : ControlLine) : all[l.bitPos]? = some l := by cases l <;> rfl

theorem mem_all (l : ControlLine) : l ∈ all := List.mem_of_getElem? l.all_getElem?_bitPos

theorem bitPos_lt (l : ControlLine) : l.bitPos < 16 := (List.getElem?_eq_some_iff.1 l.all_getElem?_bitPos).1

theorem bitPos_injective : Function.Injective bitPos := fun l m same =>
  Option.some.inj (by rw [← l.all_getElem?_bitPos, same, m.all_getElem?_bitPos])

/-- No bit of a 16-bit number is left without a line (R81). -/
theorem exists_bitPos_eq : ∀ i < 16, ∃ l : ControlLine, l.bitPos = i := by
  have place : ∀ i, (h : i < 16) → (all[i]'h).bitPos = i := by decide
  exact fun i h => ⟨_, place i h⟩

end ControlLine

namespace ControlWord

/-- A control word is the set of the lines it asserts (R80). -/
theorem eq_of_has_eq {cw cw' : ControlWord} (same : ∀ l, cw.has l = cw'.has l) : cw = cw' := by
  cases cw
  cases cw'
  congr
  exacts [same .fi, same .j, same .co, same .ce, same .oi, same .bi, same .su, same .eo, same .ao, same .ai, same .ii,
    same .io, same .ro, same .ri, same .mi, same .hlt]

/-- A 16-bit number asserts the lines whose bits are set in it (R81). -/
@[simp] theorem has_ofNumber (n : BitVec 16) (l : ControlLine) : (ofNumber n).has l = n.getLsbD l.bitPos := by
  cases l <;> rfl

/-- What one line adds to the number sets at most the bit of that line. -/
theorem getLsbD_lineBit (l m : ControlLine) (asserted : Bool) :
    (if asserted then 1#16 <<< m.bitPos else 0#16).getLsbD l.bitPos = (decide (l = m) && asserted) := by
  cases asserted with
  | false => simp
  | true =>
    rw [if_pos rfl, ← BitVec.twoPow_eq, BitVec.getLsbD_twoPow]
    simp [m.bitPos_lt, ControlLine.bitPos_injective.eq_iff, eq_comm]

/-- Collecting the bits of a list of lines sets the bits of those lines that are asserted, whatever was set before. -/
theorem getLsbD_foldl_lines (cw : ControlWord) (l : ControlLine) (ls : List ControlLine) (n : BitVec 16) :
    (ls.foldl (fun n l => n ||| (if cw.has l then 1#16 <<< l.bitPos else 0#16)) n).getLsbD l.bitPos =
      (n.getLsbD l.bitPos || (decide (l ∈ ls) && cw.has l)) := by
  induction ls generalizing n with
  | nil => simp
  | cons m ls ih =>
    rw [List.foldl_cons, ih, BitVec.getLsbD_or, getLsbD_lineBit]
    by_cases here : l = m
    · subst here
      cases cw.has l <;> simp
    · simp [here]

/-- The bit of a line in the number of a control word says whether the line is asserted (R81). -/
@[simp] theorem getLsbD_number (cw : ControlWord) (l : ControlLine) : cw.number.getLsbD l.bitPos = cw.has l := by
  simp [number, getLsbD_foldl_lines, l.mem_all]

@[simp] theorem number_ofNumber (n : BitVec 16) : (ofNumber n).number = n := by
  refine BitVec.eq_of_getLsbD_eq fun i inWord => ?_
  obtain ⟨l, rfl⟩ := ControlLine.exists_bitPos_eq i inWord
  rw [getLsbD_number, has_ofNumber]

@[simp] theorem ofNumber_number (cw : ControlWord) : ofNumber cw.number = cw :=
  eq_of_has_eq fun l => by rw [has_ofNumber, getLsbD_number]

end ControlWord

/-- Settles O4: the number and the control word agree at the bit of every line. -/
theorem controlWordsAreSixteenBitNumbers : Obligations.ControlWordsAreSixteenBitNumbers :=
  ⟨ControlWord.number_ofNumber, ControlWord.ofNumber_number⟩

end Sys2Proof.Machine
end

section
/-! The ALU and the values of the two flags (41_alu_flags.md) as arithmetic of numbers in 0 to 255. -/

namespace Sys2Proof.Machine

section

variable (a b r : Byte)

theorem byte_eq_zero_iff : r = 0 ↔ r.toNat = 0 := BitVec.toNat_inj.symm

/-- The formula of R120, for addition and subtraction alike. -/
theorem toNat_alu (su : Bool) :
    (alu a b su).toNat = (a.toNat + (if su then (256 - b.toNat) % 256 else b.toNat)) % 256 := by
  cases su with
  | false => exact BitVec.toNat_add a b
  | true => simp [alu]

theorem toNat_alu_add : (alu a b false).toNat = (a.toNat + b.toNat) % 256 := toNat_alu a b false

/-- A subtraction wraps exactly when it borrows. -/
theorem toNat_alu_sub :
    (alu a b true).toNat = if b.toNat ≤ a.toNat then a.toNat - b.toNat else 256 + a.toNat - b.toNat := by
  have aBound := a.isLt
  have bBound := b.isLt
  rw [toNat_alu, if_pos rfl]
  split <;> omega

theorem alu_sub_eq : alu a b true = a - b := (BitVec.sub_eq_add_neg a b).symm

theorem zeroFlag_iff : zeroFlag r = true ↔ r.toNat = 0 := beq_iff_eq.trans (byte_eq_zero_iff r)

theorem carryFlag_iff : carryFlag r a = true ↔ r.toNat < a.toNat := decide_eq_true_iff

/-- For an addition the flag is the carry out of the 8-bit sum (R125 (a)). -/
theorem carryFlag_add_iff : carryFlag (alu a b false) a = true ↔ 256 ≤ a.toNat + b.toNat := by
  have aBound := a.isLt
  have bBound := b.isLt
  rw [carryFlag_iff, toNat_alu_add]
  omega

/-- For a subtraction it says that nothing was borrowed and the subtrahend was not 0 (R125 (b)). -/
theorem carryFlag_sub_iff : carryFlag (alu a b true) a = true ↔ 1 ≤ b.toNat ∧ b.toNat ≤ a.toNat := by
  have bBound := b.isLt
  rw [carryFlag_iff, toNat_alu_sub]
  split <;> omega

/-- Without a carry the 8-bit sum is the sum, which is 0 for two zeros only (R125 (c)). -/
theorem zero_without_carry_add_iff :
    zeroFlag (alu a b false) = true ∧ carryFlag (alu a b false) a = false ↔ a = 0 ∧ b = 0 := by
  rw [zeroFlag_iff, toNat_alu_add, ← Bool.not_eq_true, carryFlag_add_iff, byte_eq_zero_iff a, byte_eq_zero_iff b]
  omega

theorem zeroFlag_sub_iff : zeroFlag (alu a b true) = true ↔ a = b := by
  rw [zeroFlag_iff, ← byte_eq_zero_iff, alu_sub_eq]
  exact sub_eq_zero

end

namespace State

@[simp] theorem applyWord_bus (s : State) (cw : ControlWord) : (s.applyWord cw).bus = s.busOf cw := by
  rw [applyWord_eq]

/-- `EO` puts the ALU of `A` and `B` on the bus (R137) where no later source overwrites it. -/
theorem busOf_of_aluOut (s : State) {cw : ControlWord} (eo : cw.eo = true) (noAo : cw.ao = false)
    (noIo : cw.io = false) (noRo : cw.ro = false) : s.busOf cw = alu s.a s.b cw.su := by
  simp [busOf, eo, noAo, noIo, noRo]

end State

open State

/-- Settles O5: the formula is that of `toNat_alu`, and the feed that of `ALU-out` as the winning source. -/
theorem aluAddsOrAddsTheNegation : Obligations.AluAddsOrAddsTheNegation :=
  ⟨toNat_alu, fun s cw eo noAo noIo noRo => (applyWord_bus s cw).trans (busOf_of_aluOut s eo noAo noIo noRo)⟩

/-- Settles O6: over the integers by the formula of each operation, and in the corner cases as the subtraction of bytes. -/
theorem aluClosedForms : Obligations.AluClosedForms := by
  intro a b
  refine ⟨?sum, ?difference, ?minusZero, ?minusItself, ?fromZero⟩
  case sum =>
    rw [toNat_alu_add]
    norm_cast
  case difference =>
    have aBound := a.isLt
    have bBound := b.isLt
    rw [toNat_alu_sub]
    split <;> omega
  case minusZero => rw [alu_sub_eq, sub_zero]
  case minusItself => rw [alu_sub_eq, sub_self]
  case fromZero => simp [toNat_alu]

/-- Settles O7: R125 clause by clause; where the operands are equal the carry says that they are not 0. -/
theorem carryFlagClosedForms : Obligations.CarryFlagClosedForms := by
  intro a b
  refine ⟨carryFlag_add_iff a b, carryFlag_sub_iff a b, zero_without_carry_add_iff a b, zeroFlag_sub_iff a b, ?_⟩
  rintro rfl
  rw [carryFlag_sub_iff, ne_eq, byte_eq_zero_iff]
  omega

end Sys2Proof.Machine
end

section
/-! The pulse engine under any control word (42_pulse_engine.md): what the lines of one micro-step do to the state it finds,
the words of the table, `STEP` along an instruction, and the fetch. -/

namespace Sys2Proof.Machine

open State

namespace State

/-- The bus is cleared before anything reads it (R132). -/
theorem applyWord_setBus (s : State) (v : Byte) (cw : ControlWord) : (s.setBus v).applyWord cw = s.applyWord cw := rfl

theorem pulse_setBus {s : State} (running : s.halted = false) (v : Byte) : (s.setBus v).pulse = s.pulse := by
  rw [pulse_of_running running, pulse_of_running (s := s.setBus v) running, applyWord_setBus]
  rfl

/-- Without a source the bus stays cleared (R132). -/
theorem busOf_of_no_source (s : State) {cw : ControlWord} (noCo : cw.co = false) (noEo : cw.eo = false)
    (noAo : cw.ao = false) (noIo : cw.io = false) (noRo : cw.ro = false) : s.busOf cw = 0 := by
  simp [busOf, noCo, noEo, noAo, noIo, noRo]

/-- No effect of a micro-step but the values of the flags depends on the flags (R134). -/
theorem applyWord_setFlags (s : State) (cw : ControlWord) (z c z' c' : Bool) :
    ((s.setFlags z c).applyWord cw).setFlags z' c' = (s.applyWord cw).setFlags z' c' := by
  rw [applyWord_eq, applyWord_eq]
  rfl

/-- `FI` reaches nothing but the flags (R152). -/
theorem applyWord_fi_setFlags (s : State) (cw : ControlWord) :
    (s.applyWord { cw with fi := true }).setFlags s.zf s.cf = s.applyWord { cw with fi := false } := by
  rw [applyWord_eq, applyWord_eq]
  rfl

/-- `SU` reaches nothing but the ALU, which only `FI` and `EO` read (R152). -/
theorem applyWord_su_congr (s : State) {cw : ControlWord} (noFi : cw.fi = false) (noEo : cw.eo = false) (su su' : Bool) :
    s.applyWord { cw with su := su } = s.applyWord { cw with su := su' } := by
  have bus : s.busOf { cw with su := su } = s.busOf { cw with su := su' } := by simp [busOf, noEo]
  rw [applyWord_eq, applyWord_eq, bus]
  simp [noFi]

theorem toNat_applyWord_step (s : State) (cw : ControlWord) : (s.applyWord cw).step.val = (s.step.val + 1) % 5 := by
  rw [applyWord_step, Fin.val_add]
  rfl

/-- Pulses leave a halted machine halted, so one that is running after some pulses was running before each of them. -/
theorem pulses_running_of_le {s : State} {j k : Nat} (le : j ≤ k) (running : (s.pulses k).halted = false) :
    (s.pulses j).halted = false := by
  cases h : (s.pulses j).halted with
  | false => rfl
  | true =>
    have kept : s.pulses k = s.pulses j := by rw [← Nat.add_sub_cancel' le, pulses_add, pulses_of_halted h]
    rw [← h, ← kept, running]

/-- `STEP` has counted the pulses since the boundary in a machine that is running after them (R151). -/
theorem pulses_step_of_boundary {s : State} (boundary : s.AtBoundary) {k : Nat}
    (running : (s.pulses k).halted = false) : (s.pulses k).step.val = k % 5 := by
  have counted := (pulses_halted_or_step s k).resolve_left (by simp [running])
  simpa [boundary] using counted

/-- All micro-step 0 does (R153). -/
theorem pulse_fetch0 {s : State} (running : s.halted = false) (start : s.step = 0) :
    s.pulse = { s with bus := zext8 s.pc, mar := s.pc, step := 1 } := by
  rw [pulse_step0 running start, applyWord_eq]
  simp [fetch0, busOf, start]

/-- All micro-step 1 does (R154). -/
theorem pulse_fetch1 {s : State} (running : s.halted = false) (next : s.step = 1) : s.pulse =
    { s with bus := s.readMem s.mar, ir := s.readMem s.mar, pc := s.pc + 1, step := 2 } := by
  rw [pulse_step1 running next, applyWord_eq]
  simp [fetch1, busOf, next]

end State

/-- What the words of the table keep to on the bus (R104): at most one source, and one for every sink. -/
abbrev ControlWord.BusDisciplined (cw : ControlWord) : Prop :=
  (cw.linesOf .source).length ≤ 1 ∧
  ((cw.j || cw.oi || cw.bi || cw.ai || cw.ii || cw.ri || cw.mi) = true → (cw.linesOf .source).length = 1)

theorem execWords_busDisciplined (zf cf : Bool) (o : Opcode) :
    let w := execWords zf cf o
    w.slot2.BusDisciplined ∧ w.slot3.BusDisciplined ∧ w.slot4.BusDisciplined := by
  cases o <;> cases zf <;> cases cf <;> decide

/-- Slot by slot: the fetch words, the row of the opcode, and the empty words of the dead slots. -/
theorem ucode_busDisciplined (zf cf : Bool) (op : Nibble) (slot : Fin Config.rowWidth) :
    (ucode zf cf op slot).BusDisciplined := by
  obtain ⟨slot2, slot3, slot4⟩ := execWords_busDisciplined zf cf (opcodeOf op)
  have slot0 : fetch0.BusDisciplined := by decide
  have slot1 : fetch1.BusDisciplined := by decide
  have dead : ({} : ControlWord).BusDisciplined := by decide
  fin_cases slot
  exacts [slot0, slot1, slot2, slot3, slot4, dead, dead, dead]

namespace State

theorem pulse_keeps_fetchInv (s : State) (inv : s.FetchInv) : s.pulse.FetchInv := by
  cases running : s.halted with
  | true => rwa [pulse_of_halted running]
  | false =>
    have advance : s.pulse.step = s.step + 1 := by rw [pulse_of_running running, applyWord_step]
    refine ⟨fun after => ?_, fun after => ?_⟩
    · have start : s.step = 0 := add_right_cancel (advance.symm.trans after)
      rw [pulse_fetch0 running start]
    · have next : s.step = 1 := add_right_cancel (advance.symm.trans after)
      have addressed : s.mar = s.pc := inv.1 next
      rw [pulse_fetch1 running next, addressed]
      exact ⟨rfl, rfl⟩

/-- In micro-step 0 the fetch has done nothing yet. -/
theorem fetchInv_of_boundary {s : State} (boundary : s.AtBoundary) : s.FetchInv := by
  simp [FetchInv, boundary]

theorem assemble_keeps_fetchInv {s : State} (inv : s.FetchInv) (text : Text) : (s.assemble text).2.FetchInv := by
  cases image : imageOf text with
  | none => rwa [assemble_of_failing s image]
  | some img => rw [assemble_of_image s image]; exact fetchInv_of_boundary rfl

theorem perform_keeps_fetchInv (s : State) (op : Operation) (inv : s.FetchInv) : (s.perform op).FetchInv := by
  cases op with
  | pulse => exact pulse_keeps_fetchInv s inv
  | reset => exact fetchInv_of_boundary rfl
  | assemble text => exact assemble_keeps_fetchInv inv text

end State

/-- Settles O41: micro-step 0 sets `MAR` to the program counter, micro-step 1 reads the byte there and moves past it, and
every other pulse, `reset` and load ends in a micro-step of which nothing is claimed. -/
theorem fetchProgressIsKept : Obligations.FetchProgressIsKept :=
  ⟨perform_keeps_fetchInv, fun _ => reachable_induction (fetchInv_of_boundary rfl) perform_keeps_fetchInv⟩

/-- Settles O8: by `pulses_of_halted`, and `reset` writes `HALTED`. -/
theorem haltedPulsesChangeNothing : Obligations.HaltedPulsesChangeNothing :=
  fun s halted => ⟨pulses_of_halted halted, doReset_halted s⟩

/-- Settles O9: phase 1 clears the bus, which stays 0 without a source, so every sink takes 0; the words of the table are
checked slot by slot. -/
theorem busIsClearedFirst : Obligations.BusIsClearedFirst := by
  refine ⟨fun s v running => pulse_setBus running v, fun s cw noCo noEo noAo noIo noRo => ?_, ?_⟩
  · have bus : s.busOf cw = 0 := busOf_of_no_source s noCo noEo noAo noIo noRo
    have low : low4 0#8 = 0#4 := rfl
    simp +contextual [bus, low]
  · rintro zf cf op slot cw rfl
    exact (ucode_busDisciplined zf cf op slot).2

/-- Settles O10: the values of the two flags as numbers, and the ALU as the winning source where `A` takes it. -/
theorem flagLatchUsesTheOldAccumulator : Obligations.FlagLatchUsesTheOldAccumulator := by
  intro s cw
  refine ⟨fun fi => ?_, fun noFi => ?_, fun _ ai eo noAo noIo noRo => ?_, fun z c => applyWord_setFlags ..⟩
  · rw [applyWord_zf, applyWord_cf, if_pos fi, if_pos fi]
    exact ⟨zeroFlag_iff _, carryFlag_iff _ _⟩
  · simp [noFi]
  · rw [applyWord_a, if_pos ai, busOf_of_aluOut s eo noAo noIo noRo]

/-- Settles O11: `busOf` is the chain of sources, and no word of the table asserts two. -/
theorem lastSourceWins : Obligations.LastSourceWins :=
  ⟨applyWord_bus, fun zf cf op slot => (ucode_busDisciplined zf cf op slot).1⟩

/-- Settles O12: the four cases of `J` and `CE`. -/
theorem jumpThenIncrement : Obligations.JumpThenIncrement := by
  rintro s cw u rfl
  refine ⟨fun j ce => ?_, fun j ce => ?_, fun j ce => ?_, fun j ce => ?_⟩ <;> simp [j, ce, toNat_low4]

/-- Settles O13: one register at a time. -/
theorem sinksTakeTheBus : Obligations.SinksTakeTheBus := by
  rintro s cw u rfl
  rw [applyWord_bus]
  refine ⟨applyWord_out s cw, applyWord_b s cw, applyWord_a s cw, applyWord_ir s cw, ?_, applyWord_halted s cw⟩
  rw [applyWord_mar, apply_ite BitVec.toNat, toNat_low4]

/-- Settles O14: with `RI` memory is the write of the bus at the old `MAR`. -/
theorem memoryInUsesTheOldAddress : Obligations.MemoryInUsesTheOldAddress := by
  rintro s cw u canonical rfl x
  rw [readMem_eq, readMem_eq, applyWord_mem, applyWord_bus]
  cases cw.ri with
  | false => simp
  | true => simp [Memory.read_write canonical]

/-- Settles O15: the last clause because the machine is running after each of the five pulses, which `STEP` counts. -/
theorem stepAdvancesModuloFive : Obligations.StepAdvancesModuloFive := by
  refine ⟨toNat_applyWord_step, fun s running => ?_, fun s ready running => ⟨?_, fun k positive below => ?_⟩⟩
  · rw [pulse_of_running running, toNat_applyWord_step]
  · exact Fin.ext (pulses_step_of_boundary ready.2 running)
  · have counted := pulses_step_of_boundary ready.2 (pulses_running_of_le below.le running)
    rw [Nat.mod_eq_of_lt below] at counted
    exact fun back => positive.ne (by rw [← counted, back]; rfl)

/-- Settles O16: `SU` acts through the ALU and `FI` on the flags. -/
theorem subtractAndLatchLinesAlone : Obligations.SubtractAndLatchLinesAlone :=
  ⟨by decide, by decide, by decide, by decide, fun s _ noFi noEo => applyWord_su_congr s noFi noEo true false,
    applyWord_fi_setFlags⟩

/-- Settles O17: the equations of the two fetch words. -/
theorem fetchMicroSteps : Obligations.FetchMicroSteps :=
  fun _ running => ⟨pulse_fetch0 running, pulse_fetch1 running⟩

/-- Every step answers, so a run of any number of steps ends in a state (R155). -/
theorem safeRun (k : Nat) (s : State) : s.SafeRun k := by
  induction k generalizing s with
  | zero => exact ⟨s, rfl⟩
  | succ k ih =>
    obtain ⟨t, run⟩ := ih (s.pulses (5 - s.step.val))
    exact ⟨t, (run_succ_of_step (step_eq_pulses s) k).trans run⟩

/-- Settles O33: every meaning is pulses (`exec_eq`), which always answer. -/
theorem nothingFaultsOrIsRefused : Obligations.NothingFaultsOrIsRefused :=
  ⟨fun i s => ⟨_, exec_eq i s⟩, fun i _ halted => exec_of_halted i halted, safeRun⟩

end Sys2Proof.Machine
end

section
/-! LDA, STA, LDI and OUT (43_data_transfer.md): a step at a boundary as the instruction decoded there, whole instructions as
fives of pulses, and what the four transfers write and keep. -/

namespace Sys2Proof.Machine

open State

/-- Between instructions a step is five pulses, which a halted machine ignores (R164, R131). -/
theorem step_of_stop {s : State} (stop : s.halted = true ∨ s.AtBoundary) : step s = .next (s.pulses 5) := by
  rw [step_eq_pulses]
  rcases stop with halted | boundary
  · rw [pulses_of_halted halted, pulses_of_halted halted]
  · rw [boundary]
    rfl

/-- O35 with the start generalised to what a step ends in (O42): the machine stops between instructions again. -/
theorem run_eq_pulses {s : State} (stop : s.halted = true ∨ s.AtBoundary) (k : Nat) :
    Sys2Proof.core.run k s = .next (s.pulses (5 * k)) := by
  induction k generalizing s with
  | zero => rfl
  | succ k ih =>
    have first := step_of_stop stop
    have stopAgain := stepEndsAtABoundaryOrHalted s _ first
    rw [run_succ_of_step first, ih stopAgain, ← pulses_add, Nat.mul_succ, Nat.add_comm]

/-- Settles O35, by induction on the number of steps. -/
theorem runIsFivePulsesAStep : Obligations.RunIsFivePulsesAStep :=
  fun k _ boundary => run_eq_pulses (.inr boundary) k

/-- Five pulses from a boundary lead where the step does. -/
theorem pulses_five_of_step {s t : State} (boundary : s.AtBoundary) (answer : step s = .next t) : s.pulses 5 = t := by
  rw [step_of_stop (.inr boundary)] at answer
  cases answer
  rfl

/-- Settles O18: the meaning of each transfer in the state its fetch leaves, where its byte is the one fetched. -/
theorem fivePulsesOfATransfer : Obligations.FivePulsesOfATransfer := by
  intro s n ready
  have boundary : s.AtBoundary := ready.2
  have running := fetch_keeps_running ready
  have fetched := fetch_eq ready.1 boundary
  refine ⟨fun lda => ?_, fun sta => ?_, fun ldi => ?_, fun out => ?_⟩ <;> apply pulses_five_of_step boundary
  · rw [step_of_ready ready, lda, exec_lda n running, ← lda, encodeByte_current, fetched, boundary]
    rfl
  · rw [step_sta ready sta, boundary]
  · rw [step_of_ready ready, ldi, exec_ldi n running, ← ldi, encodeByte_current, fetched, boundary]
  · rw [step_of_ready ready, out, exec_out n running, ← out, encodeByte_current, fetched, boundary]

/-- Settles O32: the decoded instruction is the one at the program counter, and the fetch is two pulses. -/
theorem stepRunsTheDecodedInstruction : Obligations.StepRunsTheDecodedInstruction := by
  intro s i rest ready decodes
  cases decodes
  exact ⟨step_of_ready ready, fetch_eq ready.1 ready.2⟩

/-- Settles O23, by the meanings of LDA and LDI. -/
theorem loadsCompleteWithTheirFrame : Obligations.LoadsCompleteWithTheirFrame := by
  intro n s running
  have extended : (zext8 n).toNat = n.toNat := BitVec.toNat_setWidth_of_le (by decide)
  exact ⟨⟨_, exec_lda n running, by simp⟩, ⟨_, exec_ldi n running, by simp [extended]⟩⟩

/-- Settles O24, by the meaning of STA and the two reads after a write. -/
theorem storeCompletesWithItsFrame : Obligations.StoreCompletesWithItsFrame := by
  intro n s running
  refine ⟨_, exec_sta n running, fun x elsewhere => ?_, fun canonical => ?_, by simp⟩
  · exact Memory.read_write_other s.mem s.a elsewhere
  · exact Memory.read_write_same canonical n s.a

/-- Settles O25, by the meaning of OUT. -/
theorem outputCompletesWithItsFrame : Obligations.OutputCompletesWithItsFrame :=
  fun n _ running => ⟨_, exec_out n running, by simp⟩

end Sys2Proof.Machine
end

section
/-! ADD and SUB (44_arithmetic.md): one meaning with `SU` off and on, the whole instruction as five pulses, the result and
the flags as arithmetic of numbers in 0 to 255, and what the two keep. -/

namespace Sys2Proof.Machine

open State

/-- ADD and SUB are one meaning, but for their byte, in which `SU` picks the function of the ALU (R170, R171). -/
theorem exec_addition (n : Nibble) (su : Bool) {s : State} (running : s.halted = false) :
    exec (if su then .sub n else .add n) s =
      .next { s with
        a := alu s.a (s.readMem n) su, b := s.readMem n, mar := n
        zf := zeroFlag (alu s.a (s.readMem n) su), cf := carryFlag (alu s.a (s.readMem n) su) s.a
        ir := encodeByte (if su then .sub n else .add n), bus := alu s.a (s.readMem n) su, step := 0 } := by
  cases su with
  | false => exact exec_add n running
  | true => exact exec_sub n running

/-- Settles O19: the meaning in the state the fetch leaves, where the instruction's byte is the one fetched. -/
theorem fivePulsesOfAnAddition : Obligations.FivePulsesOfAnAddition := by
  rintro s n su r ready addition rfl
  have boundary : s.AtBoundary := ready.2
  apply pulses_five_of_step boundary
  rw [step_of_ready ready, addition, exec_addition n su (fetch_keeps_running ready), ← addition, encodeByte_current,
    fetch_eq ready.1 boundary, boundary]
  rfl

/-- Settles O26, by the meaning of ADD and the closed forms of the sum and its flags. -/
theorem addCompletesWithItsFrame : Obligations.AddCompletesWithItsFrame := by
  intro n s running
  refine ⟨_, exec_addition n false running, toNat_alu_add _ _, ?zero, carryFlag_add_iff _ _, by simp⟩
  case zero => rw [zeroFlag_iff, toNat_alu_add]

/-- Settles O27, by the meaning of SUB and the closed forms of the difference and its flags. -/
theorem subCompletesWithItsFrame : Obligations.SubCompletesWithItsFrame := by
  intro n s running
  obtain ⟨-, difference, -⟩ := aluClosedForms s.a (s.readMem n)
  exact ⟨_, exec_addition n true running, difference, zeroFlag_sub_iff _ _, carryFlag_sub_iff _ _, by simp⟩

/-- Settles O31: each row is the closed forms of O26 and O27 at operands in 0 to 255. -/
theorem arithmeticFlagsByCase : Obligations.ArithmeticFlagsByCase := by
  rintro n s a m running rfl rfl
  have aBound := s.a.isLt
  have mBound := (s.readMem n).isLt
  constructor
  · obtain ⟨t, answer, sum, zero, carry, -⟩ := addCompletesWithItsFrame n s running
    refine ⟨t, answer, ?_⟩
    simp only [← Bool.not_eq_true, zero, carry, sum]
    omega
  · obtain ⟨t, answer, difference, zero, carry, -⟩ := subCompletesWithItsFrame n s running
    refine ⟨t, answer, ?_⟩
    simp only [← Bool.not_eq_true, zero, carry, ← BitVec.toNat_inj]
    omega

end Sys2Proof.Machine
end

section
/-! NOP, the jumps, HLT and the reserved opcodes (45_control_flow_system.md): where the machine halts, the rows of the table
without a word and with the word of a taken jump, and the complete set of control transfers. -/

namespace Sys2Proof.Machine

open State

/-! ### Halting -/

/-- Of the words of micro-steps 2 to 4 only the first one of HLT halts (R100). -/
theorem execWords_halt (zf cf : Bool) (o : Opcode) :
    let w := execWords zf cf o
    (w.slot2.hlt = true → o = .hlt) ∧ w.slot3.hlt = false ∧ w.slot4.hlt = false := by
  cases o <;> cases zf <;> cases cf <;> decide

/-- The one place of the table that halts: slot by slot, the words of the fetch and of the dead slots do not. -/
theorem ucode_halt {zf cf : Bool} {op : Nibble} {slot : Fin Config.rowWidth}
    (halts : (ucode zf cf op slot).hlt = true) : slot = 2 ∧ opcodeOf op = .hlt := by
  obtain ⟨slot2, slot3, slot4⟩ := execWords_halt zf cf (opcodeOf op)
  match slot with
  | 2 => exact ⟨rfl, slot2 halts⟩
  | 3 => exact absurd (slot3.symm.trans halts) Bool.false_ne_true
  | 4 => exact absurd (slot4.symm.trans halts) Bool.false_ne_true
  | 0 | 1 | 5 | 6 | 7 => exact absurd halts Bool.false_ne_true

/-- No two of the five micro-steps look up the same slot (R133). -/
theorem slotOf_injective : Function.Injective slotOf := by decide

namespace State

/-- A pulse halts a running machine in micro-step 2 of a HLT only. -/
theorem pulse_halts {s : State} (running : s.halted = false) (halts : s.pulse.halted = true) :
    s.step = 2 ∧ opcodeOf (opcodeField s.ir) = .hlt := by
  rw [pulse_of_running running, applyWord_halted, running, Bool.or_false] at halts
  exact (ucode_halt halts).imp_left fun slot => slotOf_injective slot

/-- All micro-step 2 of a HLT does (R184). -/
theorem pulse_hlt {s : State} (running : s.halted = false) (next : s.step = 2)
    (hlt : opcodeOf (opcodeField s.ir) = .hlt) : s.pulse = { s with bus := 0, step := 3, halted := true } := by
  rw [pulse_step2 running next, hlt, applyWord_eq]
  simp [execWords, busOf, next]

theorem pulse_keeps_haltInv (s : State) (inv : s.HaltInv) : s.pulse.HaltInv := by
  cases running : s.halted with
  | true => rwa [pulse_of_halted running]
  | false =>
    intro halts
    obtain ⟨next, hlt⟩ := pulse_halts running halts
    rw [pulse_hlt running next hlt]
    exact ⟨rfl, hlt⟩

theorem haltInv_of_running {s : State} (running : s.halted = false) : s.HaltInv := by
  simp [HaltInv, running]

theorem perform_keeps_haltInv (s : State) (op : Operation) (inv : s.HaltInv) : (s.perform op).HaltInv := by
  cases op with
  | pulse => exact pulse_keeps_haltInv s inv
  | reset => exact haltInv_of_running rfl
  | assemble text =>
    rw [perform]
    cases image : imageOf text with
    | none => rwa [assemble_of_failing s image]
    | some img => rw [assemble_of_image s image]; exact haltInv_of_running rfl

end State

theorem step_keeps_haltInv {s t : State} (inv : s.HaltInv) (answer : step s = .next t) : t.HaltInv := by
  rw [step_eq_pulses] at answer
  cases answer
  exact pulses_keep pulse_keeps_haltInv inv _

/-- Settles O40: the only pulse that halts a running machine is micro-step 2 of a HLT, which keeps `IR`; a step is pulses, and
after `reset` and a load the machine is running. -/
theorem onlyHaltHaltsIsKept : Obligations.OnlyHaltHaltsIsKept :=
  ⟨fun _ _ => step_keeps_haltInv, perform_keeps_haltInv⟩

/-- After the fetch `IR` holds the opcode of the instruction at the program counter. -/
theorem opcode_fetched {s : State} (ready : s.Ready) : opcodeOf (opcodeField s.fetch.ir) = s.current.opcode := by
  rw [fetch_eq ready.1 ready.2, current, opcode_decodeByte, readMem_eq]

/-- Settles O21: the third pulse is micro-step 2 of the HLT that the two pulses of the fetch have put into `IR`, and pulses leave
the halted machine as it is. -/
theorem threePulsesOfAHalt : Obligations.ThreePulsesOfAHalt := by
  intro s n k ready hlt
  have running := fetch_keeps_running ready
  have opcode : opcodeOf (opcodeField s.fetch.ir) = .hlt := by rw [opcode_fetched ready, hlt]; rfl
  have third : s.pulses 3 = { s.fetch with bus := 0, step := 3, halted := true } := by
    rw [← pulse_hlt running (fetch_leaves_step_two ready) opcode]
    rfl
  refine ⟨running, ?_⟩
  rw [pulses_add, third, pulses_of_halted rfl, fetch_eq ready.1 ready.2]
  rfl

/-! ### The row of a jump, taken or not, of which the second is the empty row of NOP and the reserved opcodes too -/

/-- The row of a taken jump replaces the program counter by the operand, and the empty row does nothing but leave the
instruction's byte in `IR` (R180 to R183, R186). -/
theorem exec_of_jump_row {i : Instr} {s : State} (running : s.halted = false) {taken : Bool}
    (row : execWords s.zf s.cf i.opcode = if taken then jumpWords else {}) :
    exec i s = .next { s with pc := if taken then i.operand else s.pc, ir := encodeByte i, bus := 0, step := 0 } := by
  rw [exec_eq, execute_eq_words i running, row]
  cases taken with
  | true => simp [jumpWords, applyWord_eq, busOf]
  | false => simp [applyWord_eq, busOf]

/-- The same as the whole instruction, five pulses from a boundary. -/
theorem pulses_five_of_jump_row {s : State} (ready : s.Ready) {taken : Bool}
    (row : execWords s.zf s.cf s.current.opcode = if taken then jumpWords else {}) : s.pulses 5 =
      { s with
        mar := s.pc, ir := s.readMem s.pc, pc := if taken then s.current.operand else s.pc + 1, bus := 0 } := by
  have boundary : s.AtBoundary := ready.2
  have fetched := fetch_eq ready.1 boundary
  apply pulses_five_of_step boundary
  rw [step_of_ready ready, exec_of_jump_row (fetch_keeps_running ready) (by rwa [fetched]), encodeByte_current, fetched,
    boundary]

/-- Settles O20: the row of NOP is that of a jump never taken, of JMP of one always taken, of JC and JZ of one taken by the
flag. -/
theorem fivePulsesOfAJump : Obligations.FivePulsesOfAJump := by
  intro s n ready
  refine ⟨fun nop => ?_, fun jmp => ?_, fun jc => ?_, fun jz => ?_⟩
  · exact pulses_five_of_jump_row ready (taken := false) (by rw [nop]; rfl)
  · rw [pulses_five_of_jump_row ready (taken := true) (by rw [jmp]; rfl), jmp]
    rfl
  · rw [pulses_five_of_jump_row ready (taken := s.cf) (by rw [jc]; rfl), jc]
    rfl
  · rw [pulses_five_of_jump_row ready (taken := s.zf) (by rw [jz]; rfl), jz]
    rfl

/-- The reserved opcodes 9 to 13 have empty rows (R67; decision D4). -/
theorem execWords_of_reserved (zf cf : Bool) {op : Nibble} (low : 9 ≤ op.toNat) (high : op.toNat ≤ 13) :
    execWords zf cf (opcodeOf op) = {} := by
  revert op
  cases zf <;> cases cf <;> decide

/-- Settles O22: the high half of the byte is the opcode, whose row is empty. -/
theorem fivePulsesOfAReservedOpcode : Obligations.FivePulsesOfAReservedOpcode := by
  intro s ready low high
  rw [← toNat_high4] at low high
  apply pulses_five_of_jump_row ready (taken := false)
  rw [current, opcode_decodeByte]
  exact execWords_of_reserved s.zf s.cf low high

/-- Settles O44: a jump goes where its five pulses lead (O20), and of the other instructions none moves the program counter away
from the successor (O43). -/
theorem controlTransfersAreTheseOnly : Obligations.ControlTransfersAreTheseOnly := by
  intro s t ready answer
  have five : s.pulses 5 = t := pulses_five_of_step ready.2 answer
  obtain ⟨-, jmp, jc, jz⟩ := fivePulsesOfAJump s s.current.operand ready
  obtain ⟨-, -, -, -, jumps, -⟩ := onlyTheseInstructionsWriteTheseElements s t _ ready rfl answer
  rw [five] at jmp jc jz
  cases instruction : s.current
  case jmp n =>
    rw [instruction] at jmp
    rw [jmp rfl]
    exact .inr (.inl rfl)
  case jc n =>
    rw [instruction] at jc
    rw [jc rfl]
    cases carry : s.cf <;> simp [Instr.operand]
  case jz n =>
    rw [instruction] at jz
    rw [jz rfl]
    cases zero : s.zf <;> simp [Instr.operand]
  all_goals
    have successor : t.pc = s.pc + 1 := not_not.1 fun moved => by simpa [instruction, Instr.opcode] using jumps moved
    exact .inl ⟨congrArg BitVec.toNat successor, nofun, nofun, nofun⟩

/-! ### The meanings and their frames -/

/-- Settles O28: the three rows are those of a jump, taken always, by `CF` and by `ZF`, to the operand. -/
theorem jumpsCompleteWithTheirFrame : Obligations.JumpsCompleteWithTheirFrame := by
  intro n s i taken jump running
  obtain ⟨row, operand⟩ : execWords s.zf s.cf i.opcode = (if taken then jumpWords else {}) ∧ i.operand = n := by
    simp only [List.mem_cons, Prod.mk.injEq, List.not_mem_nil, or_false] at jump
    rcases jump with ⟨rfl, rfl⟩ | ⟨rfl, rfl⟩ | ⟨rfl, rfl⟩ <;> exact ⟨rfl, rfl⟩
  exact ⟨_, exec_of_jump_row running row, by simp [operand]⟩

/-- Settles O29: the six rows are empty. -/
theorem nopAndReservedCompleteWithTheirFrame : Obligations.NopAndReservedCompleteWithTheirFrame := by
  intro n s i idle running
  have empty : execWords s.zf s.cf i.opcode = {} := by
    simp only [List.mem_cons, List.not_mem_nil, or_false] at idle
    rcases idle with rfl | rfl | rfl | rfl | rfl | rfl <;> rfl
  exact ⟨_, exec_of_jump_row (taken := false) running empty, by simp⟩

/-- Settles O30, by the meaning of HLT. -/
theorem haltCompletesWithItsFrame : Obligations.HaltCompletesWithItsFrame :=
  fun n _ running => ⟨_, exec_hlt n running, by simp⟩

end Sys2Proof.Machine
end

section
/-! What the loader reads in one line (46_program_loader.md R204 to R213): a decimal literal digit by digit, a mnemonic by
its folded name, and tokens with any whitespace around and between them. -/

namespace Sys2Proof.Machine

/-- A text of whitespace only, which may be empty (R204). -/
def IsBlank (t : Text) : Prop := ∀ c ∈ t, isSpace c = true

/-! ### Tokens among whitespace -/

theorem tokens_blank_append {blank : Text} (spaces : IsBlank blank) (rest : Text) :
    tokens (blank ++ rest) = tokens rest := by
  induction blank with
  | nil => rfl
  | cons c blank ih =>
    obtain ⟨first, others⟩ := List.forall_mem_cons.1 spaces
    simpa [tokens, tokensFrom, first] using ih others

theorem tokens_blank {blank : Text} (spaces : IsBlank blank) : tokens blank = [] := by
  rw [← List.append_nil blank, tokens_blank_append spaces]
  rfl

/-- Whitespace after a token ends it, whatever follows (R204). -/
theorem tokens_word_append {w blank : Text} (word : IsWord w) (spaces : IsBlank blank) (apart : blank ≠ [])
    (rest : Text) : tokens (w ++ (blank ++ rest)) = w :: tokens rest := by
  obtain ⟨c, blank, rfl⟩ := List.exists_cons_of_ne_nil apart
  obtain ⟨first, others⟩ := List.forall_mem_cons.1 spaces
  rw [tokens, tokensFrom_append fun c mem => (word.2 c mem).1, List.nil_append, List.cons_append, tokensFrom,
    if_pos first, if_neg (by simpa using word.1)]
  exact congrArg (w :: ·) (tokens_blank_append others rest)

theorem tokens_word_blank {w blank : Text} (word : IsWord w) (spaces : IsBlank blank) : tokens (w ++ blank) = [w] := by
  rcases eq_or_ne blank [] with rfl | apart
  · rw [List.append_nil, tokens_word word]
  · simpa [tokens, tokensFrom] using tokens_word_append word spaces apart []

theorem lineByte_word_among_blanks {before w after : Text} (left : IsBlank before) (right : IsBlank after)
    (word : IsWord w) : lineByte (before ++ w ++ after) = tokensByte [w] := by
  rw [lineByte, List.append_assoc, tokens_blank_append left, tokens_word_blank word right]

theorem lineByte_two_words_among_blanks {before m between t after : Text} (left : IsBlank before)
    (middle : IsBlank between) (right : IsBlank after) (apart : between ≠ []) (first : IsWord m) (second : IsWord t) :
    lineByte (before ++ m ++ between ++ t ++ after) = tokensByte [m, t] := by
  simp only [List.append_assoc]
  rw [lineByte, tokens_blank_append left, tokens_word_append first middle apart, tokens_word_blank second right]

/-! ### The byte of one token and of two -/

theorem tokensByte_one (t : Text) : tokensByte [t] = (byteLiteral? t).or
    ((mnemonic? t).bind fun o => if standsAlone o then some (packByte (opcodeBits o) 0) else none) := by
  cases literal : byteLiteral? t <;> cases mnemonic : mnemonic? t <;> simp [tokensByte, literal, mnemonic]

theorem tokensByte_two (m t : Text) :
    tokensByte [m, t] = (mnemonic? m).bind fun o => (byteLiteral? t).map (combine o) := by
  cases mnemonic : mnemonic? m <;> cases literal : byteLiteral? t <;> simp [tokensByte, literal, mnemonic]

theorem tokensByte_of_many {ts : List Text} (many : 2 < ts.length) : tokensByte ts = none := by
  match ts, many with
  | _ :: _ :: _ :: _, _ => rfl

theorem standsAlone_iff (o : Opcode) : standsAlone o = true ↔ o = .out ∨ o = .hlt := by
  cases o <;> decide

/-! ### Decimal literals -/

/-- A number is read exactly from decimal digits, and is their value continuing `acc`. -/
theorem decimalFrom_eq_some_iff (acc : Nat) (tok : Text) (n : Nat) : decimalFrom acc tok = some n ↔
    (∀ c ∈ tok, 48 ≤ c.toNat ∧ c.toNat ≤ 57) ∧ tok.foldl (fun acc c => acc * 10 + (c.toNat - 48)) acc = n := by
  induction tok generalizing acc with
  | nil => simp [decimalFrom]
  | cons c tok ih =>
    by_cases digit : 48 ≤ c.toNat ∧ c.toNat ≤ 57
    · rw [decimalFrom, digitValue?, if_pos digit, List.forall_mem_cons, List.foldl_cons]
      simp only [ih, digit, and_self, true_and]
    · rw [decimalFrom, digitValue?, if_neg digit]
      exact iff_of_false nofun fun ⟨digits, _⟩ => digit (digits c List.mem_cons_self)

theorem byteLiteral?_eq_some_iff (tok : Text) (v : Byte) :
    byteLiteral? tok = some v ↔ tok ≠ [] ∧ decimalFrom 0 tok = some v.toNat := by
  have bound : v.toNat ≤ 255 := Nat.le_of_lt_succ v.isLt
  rcases eq_or_ne tok [] with rfl | nonempty
  · simp [byteLiteral?]
  · cases read : decimalFrom 0 tok with
    | none => simp [byteLiteral?, read]
    | some n =>
      have value : n ≤ 255 ∧ BitVec.ofNat 8 n = v ↔ n = v.toNat := by
        rw [← BitVec.toNat_inj, BitVec.toNat_ofNat]
        omega
      simp [byteLiteral?, nonempty, read, value]

/-- Settles O58, by the value read digit by digit. -/
theorem byteLiteralsAreDecimalBytes : Obligations.ByteLiteralsAreDecimalBytes := by
  intro tok v
  rw [byteLiteral?_eq_some_iff, decimalFrom_eq_some_iff]

theorem digits_of_byteLiteral {lit : Text} {v : Byte} (literal : byteLiteral? lit = some v) :
    lit ≠ [] ∧ ∀ c ∈ lit, 48 ≤ c.toNat ∧ c.toNat ≤ 57 := by
  obtain ⟨nonempty, digits, -⟩ := (byteLiteralsAreDecimalBytes lit v).1 literal
  exact ⟨nonempty, digits⟩

theorem isSpace_eq_false_of_lt {c : Char} (above : 32 < c.toNat) : isSpace c = false := by
  simp [isSpace]
  omega

theorem isWord_of_byteLiteral {lit : Text} {v : Byte} (literal : byteLiteral? lit = some v) : IsWord lit := by
  obtain ⟨nonempty, digits⟩ := digits_of_byteLiteral literal
  refine ⟨nonempty, fun c mem => ?_⟩
  have digit := digits c mem
  exact ⟨isSpace_eq_false_of_lt (by omega), by omega⟩

/-! ### Mnemonics in any mixture of cases -/

/-- Folding moves the small letters only, so digits, whitespace and the line feed stay (R210). -/
theorem foldCase_of_lt {c : Char} (low : c.toNat < 97) : foldCase c = c := if_neg (by omega)

theorem isWord_of_folded_name {o : Opcode} {tok : Text} (folded : some (tok.map foldCase) = o.name) : IsWord tok := by
  obtain ⟨nonempty, solid⟩ := isWord_name folded.symm
  refine ⟨by simpa using nonempty, fun c mem => ?_⟩
  have kept : isSpace (foldCase c) = false ∧ (foldCase c).toNat ≠ 10 := solid _ (List.mem_map_of_mem mem)
  by_cases low : c.toNat < 97
  · rwa [foldCase_of_lt low] at kept
  · exact ⟨isSpace_eq_false_of_lt (by omega), by omega⟩

theorem mnemonic?_of_folded_name {o : Opcode} {tok : Text} (loader : o ∈ loaderOpcodes)
    (folded : some (tok.map foldCase) = o.name) : mnemonic? tok = some o := by
  have upper : (tok.map foldCase).map foldCase = tok.map foldCase := by
    generalize tok.map foldCase = name at folded
    cases o <;> cases folded <;> rfl
  calc mnemonic? tok = mnemonic? (tok.map foldCase) := by rw [mnemonic?, mnemonic?, upper]
    _ = some o := by rw [mnemonic?_name folded.symm, if_pos loader]

/-- A literal is its own folding, and no name is a literal. -/
theorem byteLiteral?_of_folded_name {o : Opcode} {tok : Text} (folded : some (tok.map foldCase) = o.name) :
    byteLiteral? tok = none := by
  by_contra isLiteral
  obtain ⟨v, literal⟩ := Option.ne_none_iff_exists'.1 isLiteral
  have same : tok.map foldCase = tok := by
    rw [List.map_congr_left fun c mem => foldCase_of_lt ?_, List.map_id']
    have digit := (digits_of_byteLiteral literal).2 c mem
    omega
  rw [same] at folded
  exact isLiteral (byteLiteral?_name folded.symm)

/-! ### The line forms -/

/-- The byte of two halves as a number (30_encoding.md R61). -/
theorem toNat_packByte (op n : Nibble) : (packByte op n).toNat = 16 * op.toNat + n.toNat := by
  have high := toNat_high4 (packByte op n)
  have low := toNat_low4 (packByte op n)
  rw [high4_packByte] at high
  rw [low4_packByte] at low
  omega

/-- Settles O57: each form is its tokens among whitespace, and its byte the opcode and the operand packed. -/
theorem lineFormsAssemble : Obligations.LineFormsAssemble := by
  intro before between after blanks
  obtain ⟨⟨left, middle⟩, right⟩ : (IsBlank before ∧ IsBlank between) ∧ IsBlank after := by
    rwa [List.forall_mem_append, List.forall_mem_append] at blanks
  refine ⟨by rw [lineByte, tokens_blank left]; rfl, fun lit v literal => ?_, fun o tok alone folded => ?_,
    fun o tok lit v loader folded literal apart => ?_⟩
  · rw [lineByte_word_among_blanks left right (isWord_of_byteLiteral literal), tokensByte_one, literal, Option.some_or]
  · have loader : o ∈ loaderOpcodes := by rcases alone with rfl | rfl <;> decide
    refine ⟨packByte (opcodeBits o) 0, ?_, toNat_packByte _ _⟩
    rw [lineByte_word_among_blanks left right (isWord_of_folded_name folded), tokensByte_one,
      byteLiteral?_of_folded_name folded, mnemonic?_of_folded_name loader folded, Option.none_or, Option.bind_some,
      if_pos ((standsAlone_iff o).2 alone)]
  · refine ⟨combine o v, ?_, by rw [combine, toNat_packByte, toNat_low4]⟩
    rw [lineByte_two_words_among_blanks left middle right apart (isWord_of_folded_name folded)
      (isWord_of_byteLiteral literal), tokensByte_two, mnemonic?_of_folded_name loader folded, literal,
      Option.bind_some, Option.map_some]

end Sys2Proof.Machine
end

section
/-! The image of a text (46_program_loader.md R201 to R203, R214 to R218): a byte for each of its first sixteen lines, filled
with 0, or none if one of these lines has no byte; and what `assemble` does with it. -/

namespace Sys2Proof.Machine

open State

/-! ### The bytes of the lines -/

theorem linesBytes_cons (line : Text) (lines : List Text) :
    linesBytes (line :: lines) = (lineByte line).bind fun v => (linesBytes lines).map (v :: ·) := by
  rw [linesBytes]
  cases lineByte line <;> cases linesBytes lines <;> rfl

/-- The lines have bytes exactly if each has one, and these are they (R215). -/
theorem linesBytes_eq_some_iff (lines : List Text) (bytes : List Byte) :
    linesBytes lines = some bytes ↔ lines.map lineByte = bytes.map some := by
  induction lines generalizing bytes with
  | nil => cases bytes <;> simp [linesBytes]
  | cons line lines ih =>
    cases bytes with
    | nil => simp [linesBytes_cons, Option.bind_eq_some_iff]
    | cons b bytes => simp [linesBytes_cons, Option.bind_eq_some_iff, ← ih]

theorem linesBytes_eq_none_iff (lines : List Text) :
    linesBytes lines = none ↔ ∃ line ∈ lines, lineByte line = none := by
  induction lines with
  | nil => simp [linesBytes]
  | cons line lines ih =>
    rw [linesBytes_cons, List.exists_mem_cons_iff, ← ih]
    cases lineByte line <;> simp

theorem imageOf_eq (text : Text) : imageOf text = (linesBytes ((splitLines text).take 16)).map fillImage := by
  rw [imageOf, Config.maxLines]
  cases linesBytes ((splitLines text).take 16) <;> rfl

theorem imageOf_eq_none_iff (text : Text) :
    imageOf text = none ↔ ∃ line ∈ (splitLines text).take 16, lineByte line = none := by
  rw [imageOf_eq, Option.map_eq_none_iff, linesBytes_eq_none_iff]

/-- An image is the bytes of the first sixteen lines, filled with 0. -/
theorem exists_bytes_of_imageOf {text : Text} {img : Image} (image : imageOf text = some img) :
    ∃ bytes : List Byte, ((splitLines text).take 16).map lineByte = bytes.map some ∧ img = fillImage bytes := by
  rw [imageOf_eq, Option.map_eq_some_iff] at image
  obtain ⟨bytes, read, filled⟩ := image
  exact ⟨bytes, (linesBytes_eq_some_iff _ bytes).1 read, filled.symm⟩

theorem wellFormed_fillImage {bytes : List Byte} (few : bytes.length ≤ 16) : (fillImage bytes).wellFormed = true := by
  simp [Image.wellFormed, fillImage, Config.memSize]
  omega

/-- The fill is not seen by a read that takes 0 for a missing byte (R214). -/
theorem fillImage_getD (bytes : List Byte) (i : Nat) : (fillImage bytes).getD i 0 = bytes.getD i 0 := by
  by_cases within : i < bytes.length
  · rw [fillImage, List.getD_append _ _ _ _ within]
  · rw [fillImage, List.getD_append_right _ _ _ _ (by omega), List.getD_eq_getElem?_getD,
      List.getElem?_getD_replicate_default_eq, List.getD_eq_default _ _ (by omega)]

theorem wellFormed_of_imageOf {text : Text} {img : Image} (image : imageOf text = some img) :
    img.wellFormed = true := by
  obtain ⟨bytes, read, rfl⟩ := exists_bytes_of_imageOf image
  have size := congrArg List.length read
  rw [List.length_map, List.length_map, List.length_take] at size
  exact wellFormed_fillImage (by omega)

/-! ### Failing and succeeding -/

/-- Settles O52: a text fails with one of its first sixteen lines, and a line by its tokens. -/
theorem failedAssemblyChangesNothing : Obligations.FailedAssemblyChangesNothing := by
  refine ⟨fun s _ => assemble_of_failing s, imageOf_eq_none_iff, fun _ => tokensByte_of_many,
    fun line m t read invalid => ?_, fun line t read noLiteral noOut noHlt => ?_⟩
  · rw [lineByte, read, tokensByte_two]
    rcases invalid with noMnemonic | noLiteral
    · rw [noMnemonic, Option.bind_none]
    · simp [noLiteral]
  · rw [lineByte, read, tokensByte_one, noLiteral, Option.none_or, Option.bind_eq_none_iff]
    intro o mnemonic
    refine if_neg fun alone => ?_
    rcases (standsAlone_iff o).1 alone with rfl | rfl
    · exact noOut mnemonic
    · exact noHlt mnemonic

/-- Settles O53: what is loaded is the created machine with the image in memory. -/
theorem successfulAssemblyLoadsAndResets : Obligations.SuccessfulAssemblyLoadsAndResets := by
  rintro s text img u image rfl
  rw [assemble_of_image s image, load_eq]
  exact ⟨rfl, wellFormed_of_imageOf image, Memory.read_ofImage img, Memory.wf_ofImage img,
    rfl, rfl, rfl, rfl, rfl, rfl, rfl, rfl, rfl, rfl, rfl⟩

/-- Settles O54: the bytes are those of the lines, place by place, and the fill is 0. -/
theorem lineDefinesTheByteAtItsAddress : Obligations.LineDefinesTheByteAtItsAddress := by
  intro text img image i low
  obtain ⟨bytes, read, rfl⟩ := exists_bytes_of_imageOf image
  have place : (splitLines text)[i]?.map lineByte = bytes[i]?.map some := by
    rw [← List.getElem?_take_of_lt low, ← List.getElem?_map, read, List.getElem?_map]
  rw [fillImage_getD, List.getD_eq_getElem?_getD]
  cases line : (splitLines text)[i]? with
  | none =>
    rw [line, Option.map_none, eq_comm, Option.map_eq_none_iff] at place
    simp [place]
  | some l =>
    rw [line, Option.map_some, eq_comm, Option.map_eq_some_iff] at place
    obtain ⟨b, byte, defined⟩ := place
    simp [byte, ← defined]

/-- Settles O56: the bytes in decimal, one a line. -/
theorem everyImageIsReachable : Obligations.EveryImageIsReachable := fun _ whole =>
  ⟨_, imageOf_flatMap (f := byteDigits) whole (fun b _ c mem => ((isWord_byteDigits b).2 c mem).2) fun b _ => by
    rw [lineByte_word (isWord_byteDigits b), tokensByte_one, byteLiteral?_byteDigits, Option.some_or]⟩

/-! ### The lines past the sixteenth -/

theorem imageOf_congr {text other : Text} (same : (splitLines text).take 16 = (splitLines other).take 16) :
    imageOf text = imageOf other := by
  rw [imageOf_eq, imageOf_eq, same]

/-- What follows lines that are each ended by a line feed is further lines (R202). -/
theorem splitLines_flatMap_append {lines : List Text} (oneLine : ∀ l ∈ lines, ∀ c ∈ l, c.toNat ≠ 10) (more : Text) :
    splitLines ((lines.flatMap fun l => l ++ [Char.ofNat 10]) ++ more) = lines ++ splitLines more := by
  induction lines with
  | nil => rfl
  | cons l lines ih =>
    obtain ⟨first, others⟩ := List.forall_mem_cons.1 oneLine
    rw [List.flatMap_cons, List.append_assoc, List.append_assoc, List.singleton_append,
      splitLines_append_lineFeed first, ih others, List.cons_append]

theorem splitLines_ne_nil (c : Char) (rest : Text) : splitLines (c :: rest) ≠ [] := by
  rw [splitLines]
  split
  · simp
  · split <;> simp

/-- A line feed ends the last line of a text, or an empty one after it, and keeps the lines before (R202). -/
theorem splitLines_isPrefix_append_lineFeed (text more : Text) :
    splitLines text <+: splitLines (text ++ Char.ofNat 10 :: more) := by
  induction text with
  | nil => exact ⟨_, rfl⟩
  | cons c text ih =>
    by_cases feed : c.toNat = 10
    · simpa [splitLines, feed] using ih
    · cases lines : splitLines text with
      | nil =>
        have empty : text = [] := by
          cases text with
          | nil => rfl
          | cons d text => exact absurd lines (splitLines_ne_nil d text)
        simp [empty, splitLines, feed]
      | cons line others =>
        rw [lines] at ih
        obtain ⟨rest, split⟩ := ih
        simp [splitLines, feed, lines, ← split]

/-- Settles O55: the image is made of the first sixteen lines, and text after a line feed leaves the lines before as they
are. -/
theorem linesPastTheSixteenthAreIgnored : Obligations.LinesPastTheSixteenthAreIgnored := by
  refine ⟨fun _ _ => imageOf_congr, fun lines more size oneLine => ?_, fun text more size => imageOf_congr ?_⟩
  · have first (more : Text) :
        (splitLines ((lines.flatMap fun l => l ++ [Char.ofNat 10]) ++ more)).take 16 = lines := by
      rw [splitLines_flatMap_append oneLine, List.take_left' size]
    have alone := first []
    rw [List.append_nil] at alone
    exact ⟨first more, imageOf_congr ((first more).trans alone.symm)⟩
  · obtain ⟨rest, split⟩ := splitLines_isPrefix_append_lineFeed text more
    rw [← split, List.take_left' size, List.take_of_length_le size.le]

end Sys2Proof.Machine
end

section
/-! Runs of pulses and `reset` (60_exceptions.md R244, R247, 70_reset_and_hazards.md R262, R263, R272, R280 to R282): the end
state of a run, an instruction pulse by pulse, and `reset` in the middle of a STA. -/

namespace Sys2Proof.Machine

open State

/-! ### The end of a run -/

namespace State

/-- A run of pulses halts in one state only: the later of two halted states is the earlier one kept (R131). -/
theorem pulses_eq_of_ended {s : State} {j k : Nat} (first : (s.pulses j).Ended) (second : (s.pulses k).Ended) :
    s.pulses j = s.pulses k := by
  wlog le : j ≤ k generalizing j k with swapped
  · exact (swapped second first (Nat.le_of_not_le le)).symm
  · rw [← Nat.add_sub_cancel' le, pulses_add, pulses_of_halted first]

/-- The end state of a run is the halted state it reaches, which is there first at some pulse. -/
theorem endsIn_iff {s t : State} : s.EndsIn t ↔ t.Ended ∧ ∃ k, s.pulses k = t := by
  constructor
  · rintro ⟨k, reached, ended, -⟩
    exact ⟨ended, k, reached⟩
  · rintro ⟨ended, k, rfl⟩
    have halts : ∃ k, (s.pulses k).Ended := ⟨k, ended⟩
    exact ⟨Nat.find halts, pulses_eq_of_ended (Nat.find_spec halts) ended, ended, fun _ => Nat.find_min halts⟩

/-- The cells of a result in address order are those of memory. -/
theorem result_mem_getElem? (s : State) (x : Nibble) : s.result.mem[x.toNat]? = some (s.readMem x) := by
  have inMemory : x.toNat < Config.memSize := x.isLt
  simp [result, Memory.toImage, inMemory, Memory.read]

end State

/-- Settles O60: by `endsIn_iff` an end state is a halted state of the run, and there is one only. -/
theorem endStateIsUniqueAndKept : Obligations.EndStateIsUniqueAndKept := by
  intro s
  have reached {t : State} {k : Nat} (ends : s.EndsIn t) (ended : (s.pulses k).Ended) : s.pulses k = t := by
    obtain ⟨endedThere, j, rfl⟩ := endsIn_iff.1 ends
    exact pulses_eq_of_ended ended endedThere
  refine ⟨fun t u endsT endsU => ?_, ⟨?_, ?_⟩, fun _ _ => reached, fun t k ends => ?_⟩
  · obtain ⟨ended, k, rfl⟩ := endsIn_iff.1 endsT
    exact reached endsU ended
  · rintro ⟨t, ends⟩
    obtain ⟨ended, k, rfl⟩ := endsIn_iff.1 ends
    exact ⟨k, ended⟩
  · rintro ⟨k, ended⟩
    exact ⟨_, endsIn_iff.2 ⟨ended, k, rfl⟩⟩
  · exact ⟨pulses_of_halted (endsIn_iff.1 ends).1 k, rfl, by simp [result, Memory.toImage, Config.memSize],
      result_mem_getElem? t⟩

/-! ### An instruction pulse by pulse -/

/-- Of the words of the table only that of micro-step 1 loads `IR` (R97, R104). -/
theorem ucode_ii {zf cf : Bool} {op : Nibble} {slot : Fin Config.rowWidth}
    (loads : (ucode zf cf op slot).ii = true) : slot = 1 := by
  have slot4 : (execWords zf cf (opcodeOf op)).slot4.ii = false := by
    cases opcodeOf op <;> cases zf <;> cases cf <;> rfl
  obtain ⟨-, slot2, -, slot3, -⟩ := execWords_quiet zf cf (opcodeOf op)
  match slot with
  | 1 => rfl
  | 2 => exact absurd (slot2.symm.trans loads) Bool.false_ne_true
  | 3 => exact absurd (slot3.symm.trans loads) Bool.false_ne_true
  | 4 => exact absurd (slot4.symm.trans loads) Bool.false_ne_true
  | 0 | 5 | 6 | 7 => exact absurd loads Bool.false_ne_true

namespace State

theorem pulses_succ_last (s : State) (k : Nat) : s.pulses (k + 1) = (s.pulses k).pulse := s.pulses_add k 1

theorem pulse_keeps_ir {s : State} (elsewhere : s.halted = true ∨ s.step ≠ 1) : s.pulse.ir = s.ir := by
  cases running : s.halted with
  | true => rw [pulse_of_halted running]
  | false =>
    have notFetching : s.step ≠ 1 := elsewhere.resolve_left (by simp [running])
    rw [pulse_of_running running, applyWord_ir]
    exact if_neg fun loads => notFetching (slotOf_injective (ucode_ii loads))

/-- From the second pulse of an instruction to its last `IR` holds the instruction's byte (R282). -/
theorem pulses_ir_of_fetched {s : State} (ready : s.Ready) {k : Nat} (fetched : 2 ≤ k) (within : k ≤ 5) :
    (s.pulses k).ir = s.readMem s.pc := by
  induction k, fetched using Nat.le_induction with
  | base => exact congrArg State.ir (fetch_eq ready.1 ready.2)
  | succ k fetched ih =>
    have elsewhere : (s.pulses k).halted = true ∨ (s.pulses k).step ≠ 1 := by
      refine (pulses_halted_or_step s k).imp_right fun counted next => ?_
      have boundary : s.step = 0 := ready.2
      rw [next, boundary] at counted
      have one : 1 = k % 5 := by simpa using counted
      omega
    rw [pulses_succ_last, pulse_keeps_ir elsewhere, ih (by omega)]

/-- No instruction halts the machine before its third pulse. -/
theorem pulses_running_of_fetching {s : State} (ready : s.Ready) {k : Nat} (early : k < 3) :
    (s.pulses k).halted = false :=
  pulses_running_of_le (Nat.le_of_lt_succ early) (fetch_keeps_running ready)

/-- From the third pulse of a HLT on the machine is halted (R184, R281). -/
theorem pulses_halted_of_hlt {s : State} (ready : s.Ready) (hlt : s.current.opcode = .hlt) {k : Nat} (late : 3 ≤ k) :
    (s.pulses k).halted = true := by
  have current : s.current = .hlt s.current.operand := by
    conv_lhs => rw [← ofOpcode_opcode_operand s.current, hlt]
    rfl
  obtain ⟨-, halted⟩ := threePulsesOfAHalt s _ (k - 3) ready current
  rw [← Nat.add_sub_cancel' late, halted]

end State

/-- Settles O36: the `k` steps are `5 * k` pulses to a boundary, and the HLT there halts at its third pulse and no earlier. -/
theorem haltAfterFiveKPlusThreePulses : Obligations.HaltAfterFiveKPlusThreePulses := by
  intro k s t ready run running hlt
  rw [run_eq_pulses (.inr ready.2)] at run
  cases run
  have boundary : (s.pulses (5 * k)).AtBoundary :=
    Fin.ext ((pulses_step_of_boundary ready.2 running).trans (Nat.mul_mod_right 5 k))
  have readyThere : (s.pulses (5 * k)).Ready := ⟨running, boundary⟩
  have lastRunning : (s.pulses (5 * k + 2)).halted = false := by
    rw [pulses_add]
    exact pulses_running_of_fetching readyThere (by decide)
  refine ⟨?_, fun j below => pulses_running_of_le (Nat.le_of_lt_succ below) lastRunning⟩
  rw [pulses_add]
  exact pulses_halted_of_hlt readyThere hlt le_rfl

/-- Settles O37: `IR` is loaded by the second pulse alone, and a machine halted within the instruction holds a HLT in `IR`
(`HaltInv`), which is then the instruction's own byte. -/
theorem counterAndInstructionRegisterInStep : Obligations.CounterAndInstructionRegisterInStep := by
  intro s k ready within
  refine ⟨?_, ⟨fun halted => ?_, fun ⟨late, hlt⟩ => pulses_halted_of_hlt ready hlt late⟩, pulses_step_of_boundary ready.2⟩
  · split
    next early =>
      obtain rfl | rfl : k = 0 ∨ k = 1 := by omega
      · rfl
      · exact pulse_keeps_ir (.inr (by simp [ready.2]))
    next fetched => exact pulses_ir_of_fetched ready (Nat.le_of_not_lt fetched) within
  · have late : 3 ≤ k := by
      by_contra early
      simp [pulses_running_of_fetching ready (Nat.lt_of_not_le early)] at halted
    have inv := pulses_keep pulse_keeps_haltInv (haltInv_of_running ready.1) k
    obtain ⟨-, opcode⟩ := inv halted
    rw [pulses_ir_of_fetched ready (by omega) within, ← opcode_decodeByte] at opcode
    exact ⟨late, opcode⟩

/-! ### Reset -/

namespace State

/-- All micro-step 2 of a STA does (R161). -/
theorem pulse_sta_address {s : State} (running : s.halted = false) (next : s.step = 2)
    (sta : opcodeOf (opcodeField s.ir) = .sta) :
    s.pulse = { s with bus := zext8 (operandField s.ir), mar := operandField s.ir, step := 3 } := by
  rw [pulse_step2 running next, sta, applyWord_eq]
  simp [execWords, busOf, next]

/-- All micro-step 3 of a STA does (R161). -/
theorem pulse_sta_write {s : State} (running : s.halted = false) (next : s.step = 3)
    (sta : opcodeOf (opcodeField s.ir) = .sta) :
    s.pulse = { s with bus := s.a, mem := Memory.write s.mem s.mar s.a, step := 4 } := by
  rw [pulse_step3 running next, sta, applyWord_eq]
  simp [execWords, busOf, next]

/-- After its third pulse a STA has put its address into `MAR` and written nothing. -/
theorem pulses_three_sta {s : State} {n : Nibble} (ready : s.Ready) (sta : s.current = .sta n) :
    s.pulses 3 = { s.fetch with bus := zext8 n, mar := n, step := 3 } := by
  have opcode : opcodeOf (opcodeField s.fetch.ir) = .sta := by rw [opcode_fetched ready, sta]; rfl
  have operand : operandField s.fetch.ir = n := by
    rw [fetch_eq ready.1 ready.2, ← operand_decodeByte, ← readMem_eq, ← current, sta]
    rfl
  rw [← operand, ← pulse_sta_address (fetch_keeps_running ready) (fetch_leaves_step_two ready) opcode]
  rfl

/-- The fourth pulse of a STA writes `A` to the addressed cell. -/
theorem pulses_four_sta {s : State} {n : Nibble} (ready : s.Ready) (sta : s.current = .sta n) :
    s.pulses 4 = { s.fetch with bus := s.a, mar := n, mem := Memory.write s.mem n s.a, step := 4 } := by
  have opcode : opcodeOf (opcodeField (s.pulses 3).ir) = .sta := by
    rw [pulses_three_sta ready sta, opcode_fetched ready, sta]
    rfl
  have running : (s.pulses 3).halted = false := by
    rw [pulses_three_sta ready sta]
    exact fetch_keeps_running ready
  have next : (s.pulses 3).step = 3 := by rw [pulses_three_sta ready sta]
  have last : s.pulses 4 = (s.pulses 3).pulse := s.pulses_succ_last 3
  rw [last, pulse_sta_write running next opcode, pulses_three_sta ready sta, fetch_eq ready.1 ready.2]

end State

/-- Settles O51: `reset` keeps the memory it finds, before and after the write of the fourth pulse. -/
theorem resetBetweenMicroStepsOfAStore : Obligations.ResetBetweenMicroStepsOfAStore := by
  intro s n ready sta
  refine ⟨?_, ?_, ⟨rfl, rfl⟩, ⟨rfl, rfl⟩⟩
  · rw [doReset_mem, pulses_three_sta ready sta, fetch_eq ready.1 ready.2]
  · rw [doReset_mem, pulses_four_sta ready sta]

/-- Settles O50: `reset` gives the created machine with the memory it finds (`doReset_eq`). -/
theorem resetClearsAllButMemory : Obligations.ResetClearsAllButMemory := by
  rintro s u rfl
  rw [perform, doReset_eq]
  exact ⟨rfl, rfl, rfl, rfl, rfl, rfl, rfl, rfl, rfl, rfl, rfl, fun _ => rfl, rfl⟩

end Sys2Proof.Machine
end
